-- ==== Sys2Proof/Word.lean ====
section
/-! DEFINITION. Word.lean: the word types of the ILI9488 8080 18-bit write block, one name per width the spec uses. -/

namespace Sys2Proof

/-- The 18-bit bus word on D17..D0; also the width of each request operand field (R7 BUS_WIDTH, R60). -/
abbrev Word18 := BitVec 18

/-- An 8-bit command code, orientation byte or address byte (R7 CMD_WIDTH, R49). -/
abbrev Byte := BitVec 8

/-- A 16-bit logical coordinate (R7 COORD_WIDTH). -/
abbrev Coord := BitVec 16

/-- A rotation variant 0..3, as S.ROT and rot_out[1:0] carry it (R23). -/
abbrev Rotation := BitVec 2

/-- The 75-bit request word req[74:0] (R60, REQ_WIDTH of R7). -/
abbrev Request := BitVec 75

/-- The level of a one-bit pin: false is 0 (low), true is 1 (high) (R26). -/
abbrev Level := Bool

end Sys2Proof
end

