-- ==== Sys2Proof/Config.lean ====
section
/-! DEFINITION. Config.lean: the parameters of R7 that a board or an implementation fixes, the constants of R7, and the one
free value of the model. -/

namespace Sys2Proof

/-- The OPEN parameters of R7 that a rule of the block reads. They stand in State (as data that no step changes), so a
statement about every state is a statement about every board. The fields' default values are the spec's own defaults. -/
structure Config where
  /-- CS_ACTIVE_LEVEL: the level of CSX that asserts chip-select (R7, R26; default 0, D5). -/
  csActive : Level := false
  /-- DCX_CMD_LEVEL: the level of DCX that says command (R7, R26; default 0, D6). -/
  dcxCmd : Level := false
  /-- ROT_RESET: the value of S.ROT after block reset, `none` being the model value Unset (R7, R25; default Unset, D10). -/
  rotReset : Option Rotation := none
deriving DecidableEq, Repr

/-- The configuration with every parameter at the spec's default (R7). -/
def Config.standard : Config := { csActive := false, dcxCmd := false, rotReset := none }

/-- FREE VALUE. What the status output rot_out shows while S.ROT is Unset: R25 and I14 leave it 'unspecified (any value)'.
It is applied to the draw counter of State, so each sampling may show another value (assumption 4). -/
opaque Config.freeRotOut : Nat → Rotation

/-- COLOR_MASK, 0x3FFFF (R7, R120). -/
def colorMask : Nat := 0x3FFFF

/-- Black, the only colour constant the spec gives a value (R124). -/
def colorBlack : Nat := 0x000000

/-- The pixel-format payload byte 0x66, '18 bits/pixel' (R63). -/
def pixelFormatPayload : Word18 := 0x66

end Sys2Proof
end

