-- ==== Sys2Proof/Syntax.lean ====
section
/-! DEFINITION. Syntax.lean: one constructor for every row of spec/opcode_table.json. The rows are of three formats: REQ
(request operations and the four reserved op codes), INTERNAL (BusWrite) and BUS_CMD (the ten controller command codes, each
the assembler's name of one WRCMD request, R70). -/

namespace Sys2Proof

/-- The instructions: every row of the opcode table. Operands have exactly the widths of R65. -/
inductive Instr where
  /-- WRCMD c: one framed command write (R91). -/
  | wrcmd (c : Byte)
  /-- WRDAT w: one framed data write (R91). -/
  | wrdat (w : Word18)
  /-- SETWIN x0, y0, x1, y1: program the address window, then Memory-Write (R100). -/
  | setwin (x0 y0 x1 y1 : Coord)
  /-- SETROT r_in: set the orientation (R110). -/
  | setrot (rIn : Word18)
  /-- The reserved op code 0 (R68). `rest` is req[74:3], kept because a refusal records the request word (R141). -/
  | reservedOp0 (rest : BitVec 72)
  /-- The reserved op code 5 (R68). -/
  | reservedOp5 (rest : BitVec 72)
  /-- The reserved op code 6 (R68). -/
  | reservedOp6 (rest : BitVec 72)
  /-- The reserved op code 7 (R68). -/
  | reservedOp7 (rest : BitVec 72)
  /-- BusWrite w, the internal micro-operation of the framer; it has no op code (R80, R61). -/
  | busWrite (w : Word18)
  /-- SLPIN = WRCMD 0x10, Sleep-In (R62, R70). -/
  | slpin
  /-- SLPOUT = WRCMD 0x11, Sleep-Out (R62, R70). -/
  | slpout
  /-- DISPOFF = WRCMD 0x28, Display-Off (R62, R70). -/
  | dispoff
  /-- DISPON = WRCMD 0x29, Display-On (R62, R70). -/
  | dispon
  /-- CASET = WRCMD 0x2A, Column-Address-Set (R62, R70). -/
  | caset
  /-- PASET = WRCMD 0x2B, Page-Address-Set (R62, R70). -/
  | paset
  /-- RAMWR = WRCMD 0x2C, Memory-Write (R62, R70). -/
  | ramwr
  /-- MADCTL = WRCMD 0x36, Memory-Access-Control (R62, R70). -/
  | madctl
  /-- PIXFMT = WRCMD 0x3A, Pixel-Format-Set (R62, R70). -/
  | pixfmt
  /-- IFMODE = WRCMD 0xB0, Interface-Mode (R62, R70, R72). -/
  | ifmode
deriving DecidableEq, Repr

/-- The four operations a sequencer can be busy with (R21, R61). -/
inductive Op where
  | wrcmd
  | wrdat
  | setwin
  | setrot
deriving DecidableEq, Repr

/-- Whether DCX is at command level or at data level (R40). -/
inductive Kind where
  /-- CMD. -/
  | cmd
  /-- DAT. -/
  | dat
deriving DecidableEq, Repr

/-- A bus transaction (k, w) of R40. -/
structure Transaction where
  /-- The level of DCX, as a name. -/
  kind : Kind
  /-- The word on D17..D0. -/
  word : Word18
deriving DecidableEq, Repr

end Sys2Proof
end

