-- ==== Sys2Proof/WellFormed.lean ====
section
/-! DEFINITION. WellFormed.lean: the command codes of R62 and which instructions are the spelling of a request word. -/

namespace Sys2Proof

/-- The controller command code that a named command constructor stands for (R62). -/
def Instr.commandCode : Instr → Option Byte
  | .slpin => some 0x10
  | .slpout => some 0x11
  | .dispoff => some 0x28
  | .dispon => some 0x29
  | .caset => some 0x2A
  | .paset => some 0x2B
  | .ramwr => some 0x2C
  | .madctl => some 0x36
  | .pixfmt => some 0x3A
  | .ifmode => some 0xB0
  | .wrcmd _ => none
  | .wrdat _ => none
  | .setwin _ _ _ _ => none
  | .setrot _ => none
  | .reservedOp0 _ => none
  | .reservedOp5 _ => none
  | .reservedOp6 _ => none
  | .reservedOp7 _ => none
  | .busWrite _ => none

/-- The command code of R62 as its named constructor; `none` for a code the table does not list. -/
def commandOf (c : Byte) : Option Instr :=
  if c = 0x10 then some .slpin
  else if c = 0x11 then some .slpout
  else if c = 0x28 then some .dispoff
  else if c = 0x29 then some .dispon
  else if c = 0x2A then some .caset
  else if c = 0x2B then some .paset
  else if c = 0x2C then some .ramwr
  else if c = 0x36 then some .madctl
  else if c = 0x3A then some .pixfmt
  else if c = 0xB0 then some .ifmode
  else none

/-- An instruction is well-formed when it is the spelling the decoder gives some request word. Two checks can fail.
A WRCMD of a code listed in R62 is spelled by that code's own constructor (R70 gives both names to the one word; assumption 2).
BusWrite has no op code, so no request spells it (R61, D3). -/
def Instr.wellFormed : Instr → Bool
  | .wrcmd c => (commandOf c).isNone
  | .busWrite _ => false
  | .wrdat _ => true
  | .setwin _ _ _ _ => true
  | .setrot _ => true
  | .reservedOp0 _ => true
  | .reservedOp5 _ => true
  | .reservedOp6 _ => true
  | .reservedOp7 _ => true
  | .slpin => true
  | .slpout => true
  | .dispoff => true
  | .dispon => true
  | .caset => true
  | .paset => true
  | .ramwr => true
  | .madctl => true
  | .pixfmt => true
  | .ifmode => true

end Sys2Proof
end

