-- ==== Sys2Proof/Decode.lean ====
section
/-! DEFINITION. Decode.lean: the request word of R60 to R69, its decoder (total, rejecting by name) and encoder, and the
decoder of a bus word as a probe of the bus reads it (R71). -/

namespace Sys2Proof

/-! ### The fields of a request word (R60) -/

/-- `op`, req[2:0]. -/
def reqOp (req : Request) : BitVec 3 := req.extractLsb' 0 3
/-- `a0`, req[20:3]. -/
def reqA0 (req : Request) : Word18 := req.extractLsb' 3 18
/-- `a1`, req[38:21]. -/
def reqA1 (req : Request) : Word18 := req.extractLsb' 21 18
/-- `a2`, req[56:39]. -/
def reqA2 (req : Request) : Word18 := req.extractLsb' 39 18
/-- `a3`, req[74:57]. -/
def reqA3 (req : Request) : Word18 := req.extractLsb' 57 18
/-- req[74:3], the four operand fields together. -/
def reqRest (req : Request) : BitVec 72 := req.extractLsb' 3 72

/-- Bits [17:16] of an operand field, should-be-zero in a coordinate (R65). -/
def hiBits2 (a : Word18) : BitVec 2 := a.extractLsb' 16 2
/-- Bits [17:8] of an operand field, should-be-zero in a command code (R65). -/
def hiBits10 (a : Word18) : BitVec 10 := a.extractLsb' 8 10
/-- Bits [15:0] of an operand field (R65). -/
def coordField (a : Word18) : Coord := a.extractLsb' 0 16
/-- Bits [7:0] of an operand field (R65). -/
def byteField (a : Word18) : Byte := a.extractLsb' 0 8

/-! ### Decoding -/

/-- Why a request word spells no instruction. -/
inductive DecodeError where
  /-- RESERVED_BITS: a should-be-zero bit of op code 1 to 4 is 1 (R67, R68). -/
  | reservedBits
deriving DecidableEq, Repr

/-- Decode, as R67 writes it: the op code first, then its should-be-zero bits. The reserved op codes are constructors, so
they are told apart from RESERVED_BITS before any other bit is looked at (R144). -/
def decodeOperation (req : Request) : Except DecodeError Instr :=
  let a0 := reqA0 req
  let a1 := reqA1 req
  let a2 := reqA2 req
  let a3 := reqA3 req
  if reqOp req = 1 then
    if hiBits10 a0 ≠ 0 ∨ a1 ≠ 0 ∨ a2 ≠ 0 ∨ a3 ≠ 0 then .error .reservedBits else .ok (.wrcmd (byteField a0))
  else if reqOp req = 2 then
    if a1 ≠ 0 ∨ a2 ≠ 0 ∨ a3 ≠ 0 then .error .reservedBits else .ok (.wrdat a0)
  else if reqOp req = 3 then
    if hiBits2 a0 ≠ 0 ∨ hiBits2 a1 ≠ 0 ∨ hiBits2 a2 ≠ 0 ∨ hiBits2 a3 ≠ 0 then .error .reservedBits
    else .ok (.setwin (coordField a0) (coordField a1) (coordField a2) (coordField a3))
  else if reqOp req = 4 then
    if a1 ≠ 0 ∨ a2 ≠ 0 ∨ a3 ≠ 0 then .error .reservedBits else .ok (.setrot a0)
  else if reqOp req = 5 then .ok (.reservedOp5 (reqRest req))
  else if reqOp req = 6 then .ok (.reservedOp6 (reqRest req))
  else if reqOp req = 7 then .ok (.reservedOp7 (reqRest req))
  else .ok (.reservedOp0 (reqRest req))

/-- The one spelling of an instruction: a WRCMD of a listed code is written by the code's name (R70). -/
def Instr.spell : Instr → Instr
  | .wrcmd c => (commandOf c).getD (.wrcmd c)
  | .wrdat w => .wrdat w
  | .setwin x0 y0 x1 y1 => .setwin x0 y0 x1 y1
  | .setrot r => .setrot r
  | .reservedOp0 x => .reservedOp0 x
  | .reservedOp5 x => .reservedOp5 x
  | .reservedOp6 x => .reservedOp6 x
  | .reservedOp7 x => .reservedOp7 x
  | .busWrite w => .busWrite w
  | .slpin => .slpin
  | .slpout => .slpout
  | .dispoff => .dispoff
  | .dispon => .dispon
  | .caset => .caset
  | .paset => .paset
  | .ramwr => .ramwr
  | .madctl => .madctl
  | .pixfmt => .pixfmt
  | .ifmode => .ifmode

/-- The decoder of the request port: total on all 2^75 words. -/
def decode (req : Request) : Except DecodeError Instr :=
  match decodeOperation req with
  | .ok i => .ok i.spell
  | .error e => .error e

/-- A bus word as a decoder of the trace reads it: a command is recognised by an exact match of all 18 bits, with DCX at
command level (R71). -/
def decodeBusCommand (t : Transaction) : Option Instr :=
  match t.kind with
  | .dat => none
  | .cmd => if hiBits10 t.word = 0 then commandOf (byteField t.word) else none

/-! ### Encoding -/

/-- `req = {a3, a2, a1, a0, op}` (R60). -/
def packRequest (op : BitVec 3) (a0 a1 a2 a3 : Word18) : Request := a3 ++ a2 ++ a1 ++ a0 ++ op

/-- The request word of WRCMD c, the should-be-zero bits zero (R60, R61, R65). -/
def wrcmdRequest (c : Byte) : Request := packRequest 1 (c.setWidth 18) 0 0 0

/-- The request word of an instruction (R60, R61, R65, R70); `none` for BusWrite, which has no op code (R61). -/
def encode : Instr → Option Request
  | .wrcmd c => some (wrcmdRequest c)
  | .wrdat w => some (packRequest 2 w 0 0 0)
  | .setwin x0 y0 x1 y1 => some (packRequest 3 (x0.setWidth 18) (y0.setWidth 18) (x1.setWidth 18) (y1.setWidth 18))
  | .setrot r => some (packRequest 4 r 0 0 0)
  | .reservedOp0 x => some (x ++ 0#3)
  | .reservedOp5 x => some (x ++ 5#3)
  | .reservedOp6 x => some (x ++ 6#3)
  | .reservedOp7 x => some (x ++ 7#3)
  | .busWrite _ => none
  | .slpin => some (wrcmdRequest 0x10)
  | .slpout => some (wrcmdRequest 0x11)
  | .dispoff => some (wrcmdRequest 0x28)
  | .dispon => some (wrcmdRequest 0x29)
  | .caset => some (wrcmdRequest 0x2A)
  | .paset => some (wrcmdRequest 0x2B)
  | .ramwr => some (wrcmdRequest 0x2C)
  | .madctl => some (wrcmdRequest 0x36)
  | .pixfmt => some (wrcmdRequest 0x3A)
  | .ifmode => some (wrcmdRequest 0xB0)

/-! ### The words of spec/opcode_table.json -/

/-- The table's BUS_CMD rows fix the 18 bits of a bus word (three whole bytes, or a word of four); its REQ rows fix only the op field (one
byte) of a request word (assumption 3). -/
def isBusWordRow (nbits : Nat) : Bool := 16 < nbits && nbits ≤ 32

/-- What the decoder reads from a row's word: a BUS_CMD row's word is a bus word at command level, any other is a request. -/
def decodeTableWord (nbits w : Nat) : Option Instr :=
  if isBusWordRow nbits then
    if w < 2 ^ 18 then decodeBusCommand ⟨.cmd, BitVec.ofNat 18 w⟩ else none
  else if w < 2 ^ 75 then
    match decode (BitVec.ofNat 75 w) with
    | .ok i => some i
    | .error _ => none
  else none

/-- The request that puts a row's word into effect: the request itself, or, for a bus word at command level, the WRCMD whose
operand field is that word (R70, R71). -/
def tableRequest (nbits w : Nat) : Request :=
  if isBusWordRow nbits then packRequest 1 (BitVec.ofNat 18 w) 0 0 0 else BitVec.ofNat 75 w

end Sys2Proof
end

