-- ==== Sys2Proof/Machine/State.lean ====
section
/-! DEFINITION. Machine/State.lean: the state record S of 10_state.md with the request port, the platform's reset input and
the client beside it, all plain data; the reasons a step can stop; the state after power-on reset. -/

namespace Sys2Proof.Machine

/-- Why a step stops with a fault. No instruction raises one: the block's own faults are marks in State (R142). -/
inductive Fault where
  /-- Raised by the client's move for a lifecycle call in a lifecycle state that has no such transition (R135). Safe: nothing
  is proved of a run past it. -/
  | undefinedTransition
  /-- Raised by the client's move after a block reset aborted an operation of a lifecycle transition (R135, I3). Safe: nothing
  is proved of a run past it. -/
  | transitionInterrupted
deriving DecidableEq, Repr

/-- Why a step has no meaning. No instruction is refused: the block's own refusals are marks in State (R141). -/
inductive Refusal where
  /-- Raised by an arm of exec whose instruction has no meaning yet; no arm does. Safe. -/
  | notModelled (mnemonic : String)
  /-- Raised by the client's move for drawLine, drawCircle and fillCircle, which the spec gives no sequence (R127, D19). Safe:
  nothing is proved of a run past it. -/
  | noClientSequence
deriving DecidableEq, Repr

/-- S.phase (R21): no operation in progress, or operation `op` with `n` framed writes completed. -/
inductive Phase where
  /-- Idle. -/
  | idle
  /-- Busy(op, n). -/
  | busy (op : Op) (n : Nat)
deriving DecidableEq, Repr

/-- A pin event (p, v) of S.pins (R30). -/
inductive PinEvent where
  /-- The chip-select pin CSX was driven to this level. -/
  | csx (v : Level)
  /-- The data/command-select pin DCX was driven to this level. -/
  | dcx (v : Level)
  /-- The write strobe WRX was driven to this level. -/
  | wrx (v : Level)
  /-- The data lines D17..D0 were driven to this word. -/
  | d (w : Word18)
deriving DecidableEq, Repr

/-- The fault marks of R142. -/
inductive FaultReason where
  /-- ROT_UNSET: SETWIN with S.ROT = Unset. -/
  | rotUnset
  /-- ABORTED: block reset while S.phase is not Idle. -/
  | aborted
deriving DecidableEq, Repr

/-- The refusal reasons of R141. -/
inductive RefusalReason where
  /-- RESERVED_OP: the op field is 0, 5, 6 or 7. -/
  | reservedOp
  /-- RESERVED_BITS: a should-be-zero bit is 1. -/
  | reservedBits
deriving DecidableEq, Repr

/-- What R141 records of a refusal: its reason and the request word. -/
structure RefusedRequest where
  /-- The reason. -/
  reason : RefusalReason
  /-- The refused word. -/
  word : Request
deriving DecidableEq, Repr

/-- The Lifecycle State, which the client holds and the block does not (R33, R130 to R134). -/
inductive Lifecycle where
  /-- Reset. -/
  | reset
  /-- Awake-Displaying. -/
  | awakeDisplaying
  /-- Awake-Blanked. -/
  | awakeBlanked
  /-- Asleep. -/
  | asleep
deriving DecidableEq, Repr

/-- The calls a client makes: the public surface of R136, and the two Awake-Blanked transitions it has no public name for
(R131, R132, N7). A colour has any width, so it is a natural number (R120). -/
inductive Call where
  /-- init(rotation), R130. -/
  | init (rotation : Word18)
  /-- The transition Awake-Displaying to Awake-Blanked, R131. -/
  | blank
  /-- The transition Awake-Blanked to Awake-Displaying, R132. -/
  | unblank
  /-- sleep(), R133. -/
  | sleep
  /-- wakeUp(), R134. -/
  | wakeUp
  /-- drawPixel(x, y, c), R121. -/
  | drawPixel (x y : Coord) (color : Nat)
  /-- fillRect(x, y, w, h, c), R122. -/
  | fillRect (x y w h : Coord) (color : Nat)
  /-- drawRect(x, y, w, h, c), the same sequence (R122, C3). -/
  | drawRect (x y w h : Coord) (color : Nat)
  /-- fillBackground(c), R123. -/
  | fillBackground (color : Nat)
  /-- drawLine, which has no sequence (R127). -/
  | drawLine
  /-- drawCircle, which has no sequence (R127). -/
  | drawCircle
  /-- fillCircle, which has no sequence (R127). -/
  | fillCircle
deriving DecidableEq, Repr

/-- What the client does next, one at a time. -/
inductive ClientAction where
  /-- Present a request word on the port (R66). -/
  | request (word : Request)
  /-- RESET_PULSE (R129). -/
  | resetPulse
  /-- WAIT t (R129). -/
  | wait (t : Nat)
  /-- Make a call, which stands for its sequence (R120 to R136). -/
  | call (c : Call)
  /-- The end of a lifecycle transition: the client's Lifecycle State becomes this one (R130 to R134). -/
  | arrive (l : Lifecycle)
deriving DecidableEq, Repr

/-- The client actions that are events of the client-level trace (R129). -/
inductive ClientEvent where
  /-- (RESET_PULSE). -/
  | resetPulse
  /-- (WAIT t). -/
  | wait (t : Nat)
  /-- A transaction of the block, where the client-level trace interleaves with S.trace. -/
  | bus (t : Transaction)
deriving DecidableEq, Repr

/-- A client event with its place: how many transactions S.trace held when it happened (R129). -/
structure ClientMark where
  /-- The length of S.trace at the event. -/
  after : Nat
  /-- The event. -/
  event : ClientEvent
deriving DecidableEq, Repr

/-- The client of R14: the second party, which issues requests and owns the lifecycle and all delays. -/
structure Client where
  /-- What it has still to do, the next action first. -/
  program : List ClientAction
  /-- Its Lifecycle State. -/
  lifecycle : Lifecycle
  /-- The state a lifecycle transition in progress leads to. -/
  transition : Option Lifecycle
  /-- A block reset has aborted an operation of a transition (R135). -/
  interrupted : Bool
  /-- Its own events, in order (R129). -/
  events : List ClientMark
deriving DecidableEq, Repr

/-- The state. The fields down to `fault` are S of 10_state.md; `refusals` is what R141 records; `pinStep` is the sequencer's
place inside a frame (the model's own); `reqValid` and `reqIn` are the request port's inputs (R66); `resets` is the platform's
reset input (R160); `client` is the client (R14); `draws` counts the free values drawn (the model's own). -/
structure State where
  /-- The parameters of R7; no step changes them. -/
  cfg : Config
  /-- S.phase (R21). -/
  phase : Phase
  /-- S.req, the accepted request (R20). -/
  req : Request
  /-- S.ROT; `none` is the spec's own value Unset (R23, R25). -/
  rot : Option Rotation
  /-- S.CSX (R26). -/
  csx : Level
  /-- S.DCX (R26). -/
  dcx : Level
  /-- S.WRX (R26). -/
  wrx : Level
  /-- S.D (R26). -/
  d : Word18
  /-- S.trace, oldest first (R30, R40). -/
  trace : List Transaction
  /-- S.pins, oldest first (R30). -/
  pins : List PinEvent
  /-- S.refused (R31). -/
  refused : Bool
  /-- S.fault, oldest first (R31). -/
  fault : List FaultReason
  /-- The refused requests with their words, oldest first (R141). -/
  refusals : List RefusedRequest
  /-- How many of the seven pin writes of the frame in progress have been made (0 to 6). -/
  pinStep : Nat
  /-- req_valid, the port's valid strobe (R66). -/
  reqValid : Bool
  /-- req[74:0] on the port (R66). -/
  reqIn : Request
  /-- When the platform asserts block reset: after so many more steps, then after so many more, and so on (R160). -/
  resets : List Nat
  /-- The client. -/
  client : Client
  /-- How many free values have been drawn. -/
  draws : Nat
deriving DecidableEq, Repr

/-- The client before its first action: nothing to do, and the controller in state Reset (R130). -/
def Client.atRest : Client :=
  { program := [], lifecycle := .reset, transition := none, interrupted := false, events := [] }

/-- The state after power-on reset, for a board `cfg` and any levels `dcx` and `d` of the pins the reset does not drive (R36,
R160; vector B7.1). The reset's own two pin events are the first entries of S.pins. -/
def State.afterPowerOn (cfg : Config) (dcx : Level) (d : Word18) : State :=
  { cfg := cfg, phase := .idle, req := 0, rot := cfg.rotReset, csx := !cfg.csActive, dcx := dcx, wrx := true, d := d,
    trace := [], pins := [.csx (!cfg.csActive), .wrx true], refused := false, fault := [], refusals := [], pinStep := 0,
    reqValid := false, reqIn := 0, resets := [], client := Client.atRest, draws := 0 }

/-- The machine right after reset. DESIGN CHOICE (assumption 1): DCX and D, which the spec leaves to a draw, are 0 here. -/
def State.reset : State := State.afterPowerOn Config.standard false 0

end Sys2Proof.Machine
end

