-- ==== Sys2Proof/Machine/Operands.lean ====
section
/-! DEFINITION. Machine/Operands.lean: the operand forms of the spec: bytes of a coordinate, the axis map, the orientation
byte and the rotation clamp, the transactions an operation sends. -/

namespace Sys2Proof.Machine

/-- The transaction of a command byte, (CMD, zext_18(c)) (R43). -/
def cmdWord (c : Byte) : Transaction := ⟨.cmd, c.setWidth 18⟩

/-- The transaction of a data byte, (DAT, zext_18(b)) (R46, R49). -/
def datByte (b : Byte) : Transaction := ⟨.dat, b.setWidth 18⟩

/-- v[15:8] (R107). -/
def highByte (v : Coord) : Byte := v.extractLsb' 8 8

/-- v[7:0] (R107). -/
def lowByte (v : Coord) : Byte := v.extractLsb' 0 8

/-- A 16-bit value as its two data transactions, high byte first (R46). -/
def coordBytes (v : Coord) : List Transaction := [datByte (highByte v), datByte (lowByte v)]

/-- The value a receiver reads from the two bytes, (hi << 8) | lo (R46). -/
def receiveCoord (hi lo : Byte) : Coord := (hi.setWidth 16 <<< 8) ||| lo.setWidth 16

/-- What SETWIN sends to the two address registers: column start and end, page start and end. -/
structure Window where
  /-- The column start. -/
  c0 : Coord
  /-- The column end. -/
  c1 : Coord
  /-- The page start. -/
  p0 : Coord
  /-- The page end. -/
  p1 : Coord
deriving DecidableEq, Repr

/-- `swap = ROT[0]`: the Landscape variants swap the axes (R23). -/
def swapsAxes (r : Rotation) : Bool := r.getLsbD 0

/-- `inverted = ROT[1]` (R23). -/
def isInverted (r : Rotation) : Bool := r.getLsbD 1

/-- The axis mapping, which depends on ROT[0] alone (R100, R101). -/
def axisMap (r : Rotation) (x0 y0 x1 y1 : Coord) : Window :=
  if swapsAxes r then ⟨y0, y1, x0, x1⟩ else ⟨x0, x1, y0, y1⟩

/-- A register sequence: the command, the start value, the end value (R103). -/
def registerSequence (command : Byte) (first last : Coord) : List Transaction :=
  cmdWord command :: (coordBytes first ++ coordBytes last)

/-- The eleven transactions of SETWIN: the column sequence, the page sequence, Memory-Write (R100, R102). -/
def setwinTransactions (r : Rotation) (x0 y0 x1 y1 : Coord) : List Transaction :=
  let win := axisMap r x0 y0 x1 y1
  registerSequence 0x2A win.c0 win.c1 ++ registerSequence 0x2B win.p0 win.p1 ++ [cmdWord 0x2C]

/-- MADCTL_BYTE, the orientation byte of a rotation (R64, R111). -/
def madctlByte (r : Rotation) : Byte :=
  if r = 0 then 0x48 else if r = 1 then 0x28 else if r = 2 then 0x88 else 0xE8

/-- `(r_in > 3) ? 0 : r_in[1:0]`, compared at the full 18 bits (R110, D11). -/
def clampRotation (rIn : Word18) : Rotation := if rIn > 3 then 0 else rIn.extractLsb' 0 2

/-- The two transactions of SETROT (R110). -/
def setrotTransactions (rIn : Word18) : List Transaction := [cmdWord 0x36, datByte (madctlByte (clampRotation rIn))]

/-- The transactions of the operation in progress, read from the latched request S.req (R20, R90, R91, R100, R110). -/
def opTransactions (s : State) : Op → List Transaction
  | .wrcmd => [cmdWord (byteField (reqA0 s.req))]
  | .wrdat => [⟨.dat, reqA0 s.req⟩]
  | .setwin =>
    match s.rot with
    | none => []
    | some r => setwinTransactions r (coordField (reqA0 s.req)) (coordField (reqA1 s.req)) (coordField (reqA2 s.req)) (coordField (reqA3 s.req))
  | .setrot => setrotTransactions (reqA0 s.req)

/-- How many framed writes an operation makes (R21, R73). -/
def frameCount : Op → Nat
  | .wrcmd => 1
  | .wrdat => 1
  | .setwin => 11
  | .setrot => 2

/-- A colour of any width, masked to 18 bits (R120). -/
def maskColor (c : Nat) : Word18 := BitVec.ofNat 18 (c &&& colorMask)

end Sys2Proof.Machine
end

