-- ==== Sys2Proof/Machine/Ops.lean ====
section
/-! DEFINITION. Machine/Ops.lean: the named operations over the state: Pin and Emit of R11, BusWrite, Frame, raising a
refusal and a fault mark, block reset, the request latch. -/

namespace Sys2Proof.Machine

/-- `Pin(p) <- v`: the pin register takes the level, and the event is recorded even if the level does not change (R11). -/
def drive (e : PinEvent) (s : State) : State :=
  match e with
  | .csx v => { s with csx := v, pins := s.pins ++ [.csx v] }
  | .dcx v => { s with dcx := v, pins := s.pins ++ [.dcx v] }
  | .wrx v => { s with wrx := v, pins := s.pins ++ [.wrx v] }
  | .d w => { s with d := w, pins := s.pins ++ [.d w] }

/-- `Emit(k, w)` (R11, R40). -/
def emit (t : Transaction) (s : State) : State := { s with trace := s.trace ++ [t] }

/-- The level of DCX for a kind: command level, or the other level (R26, R90). -/
def dcxLevel (cfg : Config) : Kind → Level
  | .cmd => cfg.dcxCmd
  | .dat => !cfg.dcxCmd

/-- `BusWrite(w)`: clear the data lines, set them to w, strobe WRX low then high (R80). HoldLow records nothing (R11, R81). -/
def busWrite (w : Word18) (s : State) : State :=
  drive (.wrx true) (drive (.wrx false) (drive (.d w) (drive (.d 0) s)))

/-- `S.phase <- Busy(op, n + 1)`, op and n taken from S.phase (R90). -/
def countFrame (s : State) : State :=
  match s.phase with
  | .idle => s
  | .busy op n => { s with phase := .busy op (n + 1) }

/-- `Frame(k, w)`: one framed write, the steps of R90 in order. -/
def frame (t : Transaction) (s : State) : State :=
  let s := drive (.csx s.cfg.csActive) s
  let s := drive (.dcx (dcxLevel s.cfg t.kind)) s
  let s := busWrite t.word s
  let s := emit t s
  let s := drive (.csx (!s.cfg.csActive)) s
  countFrame s

/-- Framed writes one after another (R12, R53). -/
def runFrames (ts : List Transaction) (s : State) : State := ts.foldl (fun s t => frame t s) s

/-- `S.phase <- Busy(op, 0)` (R67). -/
def beginOp (op : Op) (s : State) : State := { s with phase := .busy op 0, pinStep := 0 }

/-- `S.phase <- Idle` (R67, R91, R100, R110). -/
def endOp (s : State) : State := { s with phase := .idle }

/-- `S.ROT <- r` (R110). -/
def setRot (r : Rotation) (s : State) : State := { s with rot := some r }

/-- `raise Refused(reason)`: the refusal mark is set and the word recorded; no pin moves and nothing else changes (R11, R141). -/
def raiseRefused (reason : RefusalReason) (word : Request) (s : State) : State :=
  { s with refused := true, refusals := s.refusals ++ [⟨reason, word⟩] }

/-- `raise Fault(reason)`: the reason is appended to S.fault (R11, R142). -/
def raiseFault (reason : FaultReason) (s : State) : State := { s with fault := s.fault ++ [reason] }

/-- The mark of a reset that arrives while an operation runs (R160, R161). -/
def markAbort (s : State) : State :=
  match s.phase with
  | .idle => s
  | .busy _ _ => raiseFault .aborted s

/-- `BlockReset()`: mark an abort, deassert chip-select, release the strobe, Idle, ROT_RESET; DCX and D keep their levels (R160).
DESIGN CHOICE (assumption 16): S.req, which R20 and R36 leave unspecified after reset, keeps the word it held. -/
def blockReset (s : State) : State :=
  let s := markAbort s
  let s := drive (.csx (!s.cfg.csActive)) s
  let s := drive (.wrx true) s
  { s with phase := .idle, pinStep := 0, rot := s.cfg.rotReset }

/-- A new run before its power-on reset: empty lists, no marks, and any levels on the pins (R160, D25). -/
def freshRun (cfg : Config) (csx dcx wrx : Level) (d : Word18) : State :=
  { State.afterPowerOn cfg dcx d with csx := csx, wrx := wrx, pins := [] }

/-- `S.req <- req` on acceptance; the client lets go of the port (R66). -/
def latchRequest (s : State) : State := { s with req := s.reqIn, reqValid := false }

/-- WRCMD's body (R91). -/
def runWrcmd (c : Byte) (s : State) : State := endOp (frame (cmdWord c) (beginOp .wrcmd s))

/-- The refusal of a reserved op code: the whole word `{rest, op}` is recorded (R67, R68, R141). -/
def refuseReservedOp (rest : BitVec 72) (op : BitVec 3) (s : State) : State := raiseRefused .reservedOp (rest ++ op) s

end Sys2Proof.Machine
end

