-- ==== Sys2Proof/Machine/Flags.lean ====
section
/-! DEFINITION. Machine/Flags.lean: the block has no flags (R22); this file holds its status outputs, the canvas a client
computes from them, and the reading of the pin record as transactions (R42). -/

namespace Sys2Proof.Machine

/-- `ready = (S.phase == Idle)` (R22). -/
def ready (s : State) : Bool :=
  match s.phase with
  | .idle => true
  | .busy _ _ => false

/-- `rot_out[1:0]`: S.ROT, or any value while S.ROT is Unset (R24, R25, R36). -/
def rotOut (s : State) : Rotation :=
  match s.rot with
  | some r => r
  | none => Config.freeRotOut s.draws

/-- CANVAS_W (R113). -/
def canvasWidth (r : Rotation) : Nat := if swapsAxes r then 480 else 320

/-- CANVAS_H (R113). -/
def canvasHeight (r : Rotation) : Nat := if swapsAxes r then 320 else 480

/-- What the display controller, or a probe, makes of the pin events so far: the current levels, whether the last WRX event
was a fall, and the transactions latched (R42). -/
structure Probe where
  /-- The level of CSX. -/
  csx : Level
  /-- The level of DCX. -/
  dcx : Level
  /-- The last WRX event was (WRX, 0). -/
  fell : Bool
  /-- The word on the data lines. -/
  d : Word18
  /-- The transactions latched, oldest first. -/
  latched : List Transaction
deriving DecidableEq, Repr

/-- The kind the controller reads from the level of DCX (R42). -/
def kindAt (cfg : Config) (dcx : Level) : Kind := if dcx = cfg.dcxCmd then .cmd else .dat

/-- One pin event as the controller sees it: a rise of WRX after a fall, with CSX asserted, latches (R42, D7). -/
def Probe.observe (cfg : Config) (p : Probe) (e : PinEvent) : Probe :=
  match e with
  | .csx v => { p with csx := v }
  | .dcx v => { p with dcx := v }
  | .d w => { p with d := w }
  | .wrx false => { p with fell := true }
  | .wrx true =>
    if p.fell = true ∧ p.csx = cfg.csActive then
      { p with fell := false, latched := p.latched ++ [⟨kindAt cfg p.dcx, p.d⟩] }
    else { p with fell := false }

/-- The probe before the first event: chip-select not asserted, no strobe seen, DCX and D at any level (R36). -/
def Probe.start (cfg : Config) (dcx : Level) (d : Word18) : Probe :=
  { csx := !cfg.csActive, dcx := dcx, fell := false, d := d, latched := [] }

/-- The probe after a list of pin events. -/
def Probe.replay (cfg : Config) (p : Probe) (es : List PinEvent) : Probe := es.foldl (Probe.observe cfg) p

end Sys2Proof.Machine
end

