-- ==== Sys2Proof/Machine/Client.lean ====
section
/-! DEFINITION. Machine/Client.lean: the client of 44_client_sequences.md: the assembler's statements (R70), the drawing and
lifecycle sequences, and one move of the client. The rules bind a client that claims to be the reference driver; any other
client is a program of raw request words. -/

namespace Sys2Proof.Machine

/-- The statements of the assembly notation of R70. -/
inductive Stmt where
  /-- A request statement or a command's name. -/
  | op (i : Instr)
  /-- WRDAT16 v. -/
  | wrdat16 (v : Coord)
  /-- FILL n, c. -/
  | fill (n : Nat) (color : Nat)
  /-- RESET_PULSE. -/
  | resetPulse
  /-- WAIT t. -/
  | wait (t : Nat)
deriving DecidableEq, Repr

/-- The client action of one instruction: its request word. BusWrite has none (R61, D3). -/
def requestOf (i : Instr) : List ClientAction :=
  match encode i with
  | some w => [.request w]
  | none => []

/-- What a statement expands to (R70). -/
def expand : Stmt → List ClientAction
  | .op i => requestOf i
  | .wrdat16 v => requestOf (.wrdat ((highByte v).setWidth 18)) ++ requestOf (.wrdat ((lowByte v).setWidth 18))
  | .fill n c => (List.replicate n (requestOf (.wrdat (maskColor c)))).flatten
  | .resetPulse => [.resetPulse]
  | .wait t => [.wait t]

/-- A sequence of statements as client actions. -/
def assemble (p : List Stmt) : List ClientAction := p.flatMap expand

/-- drawPixel(x, y, c) (R121). -/
def drawPixelSeq (x y : Coord) (c : Nat) : List Stmt := [.op (.setwin x y x y), .op (.wrdat (maskColor c))]

/-- fillRect and drawRect: the window ends modulo 2^16, the count w*h exact (R122, D18). -/
def fillRectSeq (x y w h : Coord) (c : Nat) : List Stmt :=
  [.op (.setwin x y (x + w - 1) (y + h - 1)), .fill (w.toNat * h.toNat) c]

/-- fillBackground(c) in rotation r (R123). -/
def fillBackgroundSeq (r : Rotation) (c : Nat) : List Stmt :=
  [.op (.setwin 0 0 (BitVec.ofNat 16 (canvasWidth r - 1)) (BitVec.ofNat 16 (canvasHeight r - 1))),
    .fill (canvasWidth r * canvasHeight r) c]

/-- init(rotation) (R130, R163). -/
def initSeq (rotation : Word18) : List Stmt :=
  [.resetPulse, .op .slpout, .wait 120, .op .pixfmt, .op (.wrdat pixelFormatPayload), .op (.setrot rotation), .op .dispon,
    .wait 20]

/-- Awake-Displaying to Awake-Blanked (R131). -/
def blankSeq : List Stmt := [.op .dispoff, .wait 20]

/-- Awake-Blanked to Awake-Displaying (R132). -/
def unblankSeq : List Stmt := [.op .dispon, .wait 20]

/-- sleep() (R133). -/
def sleepSeq : List Stmt := [.op .dispoff, .wait 20, .op .slpin, .wait 120]

/-- wakeUp(), Display-On before Sleep-Out and 20 units after it, as C2 keeps it (R134). -/
def wakeUpSeq : List Stmt := [.op .dispon, .wait 20, .op .slpout, .wait 20]

/-- What a call comes to. -/
inductive Plan where
  /-- A sequence of statements that is no lifecycle transition. -/
  | draw (p : List Stmt)
  /-- A lifecycle transition: its sequence and the state it leads to. -/
  | transit (p : List Stmt) (l : Lifecycle)
  /-- The lifecycle state has no such transition (R135). -/
  | undefined
  /-- The spec gives the call no sequence (R127). -/
  | noSequence
deriving DecidableEq, Repr

/-- A call in a lifecycle state, with `r` the value of rot_out. The transitions are those of R130 to R134 and no other (R135);
drawing is not tied to a lifecycle state (R33). -/
def plan (c : Call) (l : Lifecycle) (r : Rotation) : Plan :=
  match c, l with
  | .init rotation, .reset => .transit (initSeq rotation) .awakeDisplaying
  | .init _, _ => .undefined
  | .blank, .awakeDisplaying => .transit blankSeq .awakeBlanked
  | .blank, _ => .undefined
  | .unblank, .awakeBlanked => .transit unblankSeq .awakeDisplaying
  | .unblank, _ => .undefined
  | .sleep, .awakeDisplaying => .transit sleepSeq .asleep
  | .sleep, .awakeBlanked => .transit sleepSeq .asleep
  | .sleep, _ => .undefined
  | .wakeUp, .asleep => .transit wakeUpSeq .awakeDisplaying
  | .wakeUp, _ => .undefined
  | .drawPixel x y color, _ => .draw (drawPixelSeq x y color)
  | .fillRect x y w h color, _ => .draw (fillRectSeq x y w h color)
  | .drawRect x y w h color, _ => .draw (fillRectSeq x y w h color)
  | .fillBackground color, _ => .draw (fillBackgroundSeq r color)
  | .drawLine, _ => .noSequence
  | .drawCircle, _ => .noSequence
  | .fillCircle, _ => .noSequence

/-- A call that samples rot_out: fillBackground, for the canvas (R113, R123). -/
def samplesRotOut (c : Call) : Bool :=
  match c with
  | .fillBackground _ => true
  | .init _ => false
  | .blank => false
  | .unblank => false
  | .sleep => false
  | .wakeUp => false
  | .drawPixel _ _ _ => false
  | .fillRect _ _ _ _ _ => false
  | .drawRect _ _ _ _ _ => false
  | .drawLine => false
  | .drawCircle => false
  | .fillCircle => false

/-- Each sampling of rot_out while it is unspecified draws a new free value (R25). -/
def afterSampling (c : Call) (s : State) : State := if samplesRotOut c then { s with draws := s.draws + 1 } else s

/-- Record a client event at its place in the trace (R129). -/
def noteEvent (e : ClientEvent) (s : State) : State :=
  { s with client := { s.client with events := s.client.events ++ [⟨s.trace.length, e⟩] } }

/-- The rest of the client's program. -/
def setProgram (p : List ClientAction) (s : State) : State := { s with client := { s.client with program := p } }

/-- Put a request on the port (R66). -/
def presentRequest (w : Request) (s : State) : State := { s with reqValid := true, reqIn := w }

/-- Replace a call by its sequence. -/
def makeCall (c : Call) (rest : List ClientAction) (s : State) : Host.Outcome State Fault Refusal :=
  match plan c s.client.lifecycle (rotOut s) with
  | .draw p => .next (setProgram (assemble p ++ rest) (afterSampling c s))
  | .transit p l =>
    .next (setProgram (assemble p ++ .arrive l :: rest) { s with client := { s.client with transition := some l } })
  | .undefined => .fault .undefinedTransition
  | .noSequence => .refused .noClientSequence

/-- One move of the client, made while the block is idle and the port is empty: an idle block with nothing to do stays as it is.
DESIGN CHOICE (assumption 17): a reset pulse leaves the Lifecycle State as it was; only the end of a transition changes it. -/
def clientMove (s : State) : Host.Outcome State Fault Refusal :=
  if s.client.interrupted then .fault .transitionInterrupted
  else
    match s.client.program with
    | [] => .next s
    | .request w :: rest => .next (presentRequest w (setProgram rest s))
    | .resetPulse :: rest => .next (noteEvent .resetPulse (setProgram rest s))
    | .wait t :: rest => .next (noteEvent (.wait t) (setProgram rest s))
    | .arrive l :: rest =>
      .next (setProgram rest { s with client := { s.client with lifecycle := l, transition := none } })
    | .call c :: rest => makeCall c rest s

/-- A reset that aborts an operation of a lifecycle transition interrupts the transition (R135, I3). -/
def interrupts (s : State) : Bool := !ready s && s.client.transition.isSome

/-- The platform's reset as the whole system sees it: the block's reset (R160), and the client's transition interrupted where an
operation of it is aborted (R135). -/
def platformReset (s : State) : State :=
  let t := blockReset s
  { t with client := { t.client with interrupted := t.client.interrupted || interrupts s } }

/-- The client-level trace from its marks: `done` transactions of the block already listed, `trace` the rest (R129). -/
def interleave (done : Nat) : List ClientMark → List Transaction → List ClientEvent
  | [], trace => trace.map .bus
  | m :: ms, trace =>
    (trace.take (m.after - done)).map .bus ++ m.event :: interleave (max done m.after) ms (trace.drop (m.after - done))

/-- The client-level trace, which interleaves with S.trace in program order (R129). -/
def clientTrace (s : State) : List ClientEvent := interleave 0 s.client.events s.trace

end Sys2Proof.Machine
end

