-- ==== Sys2Proof/Machine/AddressWindow.lean ====
section
/-! DEFINITION. Machine/AddressWindow.lean: SETWIN (42_address_window.md). -/

namespace Sys2Proof.Machine

/-- SETWIN x0, y0, x1, y1: S.ROT is read once, at the start; while it is Unset the fault mark is recorded before any pin moves
and nothing is emitted; else the eleven frames (R100). Nothing is checked of the coordinates (R104). -/
def execSetwin (x0 y0 x1 y1 : Coord) (s : State) : Host.Outcome State Fault Refusal :=
  match s.rot with
  | none => .next (endOp (raiseFault .rotUnset (beginOp .setwin s)))
  | some r => .next (endOp (runFrames (setwinTransactions r x0 y0 x1 y1) (beginOp .setwin s)))

end Sys2Proof.Machine
end

