-- ==== Sys2Proof/Machine/BusPrimitive.lean ====
section
/-! DEFINITION. Machine/BusPrimitive.lean: the meaning of the table's INTERNAL row, BusWrite (40_bus_primitive.md). -/

namespace Sys2Proof.Machine

/-- BusWrite w: four pin writes, no transaction of its own, no phase (R80). -/
def execBusWrite (w : Word18) (s : State) : Host.Outcome State Fault Refusal := .next (busWrite w s)

end Sys2Proof.Machine
end

