-- ==== Sys2Proof/Machine/Commands.lean ====
section
/-! DEFINITION. Machine/Commands.lean: the ten controller command codes of R62, each the WRCMD of its code (R70). The block
sends the code and knows nothing of what the controller does with it (R6, R93). -/

namespace Sys2Proof.Machine

/-- SLPIN: Sleep-In, WRCMD 0x10 (R62, R70). -/
def execSlpin (s : State) : Host.Outcome State Fault Refusal := .next (runWrcmd 0x10 s)

/-- SLPOUT: Sleep-Out, WRCMD 0x11 (R62, R70). -/
def execSlpout (s : State) : Host.Outcome State Fault Refusal := .next (runWrcmd 0x11 s)

/-- DISPOFF: Display-Off, WRCMD 0x28 (R62, R70). -/
def execDispoff (s : State) : Host.Outcome State Fault Refusal := .next (runWrcmd 0x28 s)

/-- DISPON: Display-On, WRCMD 0x29 (R62, R70). -/
def execDispon (s : State) : Host.Outcome State Fault Refusal := .next (runWrcmd 0x29 s)

/-- CASET: Column-Address-Set, WRCMD 0x2A (R62, R70). -/
def execCaset (s : State) : Host.Outcome State Fault Refusal := .next (runWrcmd 0x2A s)

/-- PASET: Page-Address-Set, WRCMD 0x2B (R62, R70). -/
def execPaset (s : State) : Host.Outcome State Fault Refusal := .next (runWrcmd 0x2B s)

/-- RAMWR: Memory-Write, WRCMD 0x2C (R62, R70). -/
def execRamwr (s : State) : Host.Outcome State Fault Refusal := .next (runWrcmd 0x2C s)

/-- MADCTL: Memory-Access-Control, WRCMD 0x36 (R62, R70). -/
def execMadctl (s : State) : Host.Outcome State Fault Refusal := .next (runWrcmd 0x36 s)

/-- PIXFMT: Pixel-Format-Set, WRCMD 0x3A (R62, R70). -/
def execPixfmt (s : State) : Host.Outcome State Fault Refusal := .next (runWrcmd 0x3A s)

/-- IFMODE: Interface-Mode, WRCMD 0xB0 (R62, R70). -/
def execIfmode (s : State) : Host.Outcome State Fault Refusal := .next (runWrcmd 0xB0 s)

end Sys2Proof.Machine
end

