-- ==== Sys2Proof/Machine/Framer.lean ====
section
/-! DEFINITION. Machine/Framer.lean: the two framer operations WRCMD and WRDAT (41_framer.md). -/

namespace Sys2Proof.Machine

/-- WRCMD c: `Frame(CMD, zext_18(c))`, then Idle (R91); the code is not checked (R72, R93). -/
def execWrcmd (c : Byte) (s : State) : Host.Outcome State Fault Refusal := .next (runWrcmd c s)

/-- WRDAT w: `Frame(DAT, w)`, then Idle (R91). -/
def execWrdat (w : Word18) (s : State) : Host.Outcome State Fault Refusal :=
  .next (endOp (frame ⟨.dat, w⟩ (beginOp .wrdat s)))

end Sys2Proof.Machine
end

