-- ==== Sys2Proof/Machine/Reserved.lean ====
section
/-! DEFINITION. Machine/Reserved.lean: the four reserved op codes. The word is accepted and dropped with no pin activity, and
the refusal is marked; the machine goes on (R68, R141, program P5). -/

namespace Sys2Proof.Machine

/-- Op code 0 (R68). -/
def execReservedOp0 (rest : BitVec 72) (s : State) : Host.Outcome State Fault Refusal := .next (refuseReservedOp rest 0 s)

/-- Op code 5 (R68). -/
def execReservedOp5 (rest : BitVec 72) (s : State) : Host.Outcome State Fault Refusal := .next (refuseReservedOp rest 5 s)

/-- Op code 6 (R68). -/
def execReservedOp6 (rest : BitVec 72) (s : State) : Host.Outcome State Fault Refusal := .next (refuseReservedOp rest 6 s)

/-- Op code 7 (R68). -/
def execReservedOp7 (rest : BitVec 72) (s : State) : Host.Outcome State Fault Refusal := .next (refuseReservedOp rest 7 s)

end Sys2Proof.Machine
end

