-- ==== Sys2Proof/Machine/RotationState.lean ====
section
/-! DEFINITION. Machine/RotationState.lean: SETROT (43_rotation.md). -/

namespace Sys2Proof.Machine

/-- SETROT r_in: clamp, send Memory-Access-Control and the orientation byte, then write S.ROT, then Idle (R110). -/
def execSetrot (rIn : Word18) (s : State) : Host.Outcome State Fault Refusal :=
  .next (endOp (setRot (clampRotation rIn) (runFrames (setrotTransactions rIn) (beginOp .setrot s))))

end Sys2Proof.Machine
end

