-- ==== Sys2Proof/Machine/Sequencer.lean ====
section
/-! DEFINITION. Machine/Sequencer.lean: the same operations pin write by pin write: one move of the block while S.phase is
Busy. The step uses it when a block reset is due, so that the reset can arrive between any two pin writes (R160, R161). -/

namespace Sys2Proof.Machine

/-- The next pin write of the frame in progress, in the order of R90. The transaction is emitted with the rise of WRX that
latches it (R42, R90). -/
def framePinWrite (t : Transaction) (s : State) : State :=
  match s.pinStep with
  | 0 => { drive (.csx s.cfg.csActive) s with pinStep := 1 }
  | 1 => { drive (.dcx (dcxLevel s.cfg t.kind)) s with pinStep := 2 }
  | 2 => { drive (.d 0) s with pinStep := 3 }
  | 3 => { drive (.d t.word) s with pinStep := 4 }
  | 4 => { drive (.wrx false) s with pinStep := 5 }
  | 5 => { emit t (drive (.wrx true) s) with pinStep := 6 }
  | _ => { countFrame (drive (.csx (!s.cfg.csActive)) s) with pinStep := 0 }

/-- What an operation does after its last frame: SETROT writes S.ROT; then Idle (R91, R100, R110). -/
def finishOp (op : Op) (s : State) : State :=
  match op with
  | .wrcmd => endOp s
  | .wrdat => endOp s
  | .setwin => endOp s
  | .setrot => endOp (setRot (clampRotation (reqA0 s.req)) s)

/-- One move of the block while it is busy: the next pin write of frame n, or the end of the operation when all its frames are
done (R21). An idle block does not move. -/
def tick (s : State) : State :=
  match s.phase with
  | .idle => s
  | .busy op n =>
    match (opTransactions s op)[n]? with
    | some t => framePinWrite t s
    | none => { finishOp op s with pinStep := 0 }

/-- The operation an instruction starts, with its frames still to come. SETWIN starts none while S.ROT is Unset (R100), and a
reserved op code starts none (R141). -/
def startsOp (i : Instr) (s : State) : Option Op :=
  match i with
  | .wrcmd _ => some .wrcmd
  | .wrdat _ => some .wrdat
  | .setwin _ _ _ _ =>
    match s.rot with
    | none => none
    | some _ => some .setwin
  | .setrot _ => some .setrot
  | .reservedOp0 _ => none
  | .reservedOp5 _ => none
  | .reservedOp6 _ => none
  | .reservedOp7 _ => none
  | .busWrite _ => none
  | .slpin => some .wrcmd
  | .slpout => some .wrcmd
  | .dispoff => some .wrcmd
  | .dispon => some .wrcmd
  | .caset => some .wrcmd
  | .paset => some .wrcmd
  | .ramwr => some .wrcmd
  | .madctl => some .wrcmd
  | .pixfmt => some .wrcmd
  | .ifmode => some .wrcmd

end Sys2Proof.Machine
end

