-- ==== Sys2Proof/Machine/Accept.lean ====
section
/-! DEFINITION. Machine/Accept.lean: the acceptance of a request (R66, R67), and one move of the system when no reset arrives. -/

namespace Sys2Proof.Machine

/-- Accept the request on the port and run its operation whole (R66, R67). -/
def acceptWhole (s : State) : Host.Outcome State Fault Refusal :=
  match decode s.reqIn with
  | .ok i => exec i (latchRequest s)
  | .error .reservedBits => .next (raiseRefused .reservedBits s.reqIn (latchRequest s))

/-- Accept the request on the port and stop at the start of its frames, which the sequencer then makes pin write by pin write
(R21, R66). An instruction without frames is run whole. -/
def acceptStart (s : State) : Host.Outcome State Fault Refusal :=
  match decode s.reqIn with
  | .ok i =>
    match startsOp i s with
    | some op => .next (beginOp op (latchRequest s))
    | none => exec i (latchRequest s)
  | .error .reservedBits => .next (raiseRefused .reservedBits s.reqIn (latchRequest s))

/-- One move of the system when no reset arrives. A busy block moves, and accepts nothing (R66). An idle block accepts a
request, whole if no reset is due (`paced` false). With no request on the port, the client moves. -/
def advance (paced : Bool) (s : State) : Host.Outcome State Fault Refusal :=
  match s.phase with
  | .busy _ _ => .next (tick s)
  | .idle =>
    if s.reqValid then (if paced then acceptStart s else acceptWhole s)
    else clientMove s

/-- Put a request word on the port of an idle block with no reset due. -/
def placeRequest (w : Request) (s : State) : State :=
  { s with reqValid := true, reqIn := w, phase := .idle, resets := [] }

end Sys2Proof.Machine
end

