-- ==== Sys2Proof/Machine/Step.lean ====
section
/-! DEFINITION. Machine/Step.lean: one step of the system, and where a step takes its next instruction from. -/

namespace Sys2Proof.Machine

/-- One step. A block reset that is due comes before everything else (R144); until then its count runs down by one a step and
the block moves one pin write a step. With no reset due, an accepted request runs whole in the step that accepts it. -/
def step (s : State) : Host.Outcome State Fault Refusal :=
  match s.resets with
  | [] => advance false s
  | 0 :: rest => .next (platformReset { s with resets := rest })
  | (k + 1) :: rest => advance true { s with resets := k :: rest }

/-- A table row's word on the request port, so that the next step accepts it and runs exactly it. -/
def State.withFetchWord (s : State) (nbits w : Nat) : State := placeRequest (tableRequest nbits w) s

end Sys2Proof.Machine
end

