-- ==== Sys2Proof/Safety.lean ====
section
/-! DEFINITION. Safety.lean: what a claim about a run takes as premise, and the invariants of the block that claims name. -/

namespace Sys2Proof.Machine

/-- A run that supports a claim: no refusal and no fault mark (R31, R142). -/
def State.Clean (s : State) : Prop := s.refused = false ∧ s.fault = []

/-- The block can accept the request on its port, and no reset is due (R66, R160). -/
def State.Accepting (s : State) : Prop := s.phase = .idle ∧ s.reqValid = true ∧ s.resets = []

/-- The seven pin events of one framed write, as R90 lists them at level P. -/
def frameEvents (cfg : Config) (t : Transaction) : List PinEvent :=
  [.csx cfg.csActive, .dcx (dcxLevel cfg t.kind), .d 0, .d t.word, .wrx false, .wrx true, .csx (!cfg.csActive)]

/-- A phase with `k` more framed writes counted (R21, R90). -/
def Phase.addFrames (k : Nat) : Phase → Phase
  | .idle => .idle
  | .busy op n => .busy op (n + k)

/-- The levels of CSX and WRX while the block is idle: chip-select deasserted, strobe high (R29). -/
def State.IdlePins (s : State) : Prop := s.csx = !s.cfg.csActive ∧ s.wrx = true

/-- The sequencer is where S.phase and the pin count say: idle with idle pins, or busy with a frame in progress whose CSX is
asserted from its first to its last pin write and whose WRX is low only between the two strobe edges (R21, R29, R90). A busy
SETWIN has a rotation to map with (R100). -/
def State.SequencerOk (s : State) : Prop :=
  match s.phase with
  | .idle => s.IdlePins ∧ s.pinStep = 0
  | .busy op n =>
    n ≤ frameCount op ∧ s.pinStep ≤ 6 ∧ (s.pinStep ≠ 0 → n < frameCount op) ∧
    s.csx = (if s.pinStep = 0 then !s.cfg.csActive else s.cfg.csActive) ∧
    s.wrx = decide (s.pinStep ≠ 5) ∧
    (op = .setwin → s.rot.isSome = true)

/-- Inside a frame, DCX and D stand at what the frame's pin writes so far have put on them (R82, R90, R165). -/
def State.FrameLines (s : State) : Prop :=
  match s.phase with
  | .idle => True
  | .busy op n =>
    match (opTransactions s op)[n]? with
    | none => True
    | some t =>
      (2 ≤ s.pinStep → s.dcx = dcxLevel s.cfg t.kind) ∧
      (s.pinStep = 3 → s.d = 0) ∧
      (4 ≤ s.pinStep → s.d = t.word)

/-- The pin record, read as the controller reads it, ends at the levels the pin registers show and has latched exactly S.trace
(R30, R42). -/
def State.PinsMatchTrace (s : State) : Prop :=
  ∃ dcx d, Probe.replay s.cfg (Probe.start s.cfg dcx d) s.pins =
    { csx := s.csx, dcx := s.dcx, fell := !s.wrx, d := s.d, latched := s.trace }

/-- Each event the client has recorded is its own, and its place is inside the trace (R129). -/
def State.MarksInTrace (s : State) : Prop :=
  ∀ m ∈ s.client.events, m.after ≤ s.trace.length ∧ (m.event = .resetPulse ∨ ∃ t, m.event = .wait t)

/-- The invariant of the block: the sequencer's place, the lines inside a frame, and the pin record against the trace. -/
def State.Inv (s : State) : Prop := s.SequencerOk ∧ s.FrameLines ∧ s.PinsMatchTrace

end Sys2Proof.Machine
end

