-- ==== Sys2Proof/Certificates/Slice0/Obligations.lean ====
section
/-! DEFINITION. Certificates/Slice0/Obligations.lean: the statements for the provers. What an instruction must leave is written
out here in full from the spec's rules (names under Sys2Proof.Expect), without the model's own operand functions. -/

open Sys2Proof Sys2Proof.Machine

/-- The transaction (CMD, code), the code below 256 (R43). -/
def Sys2Proof.Expect.cmd (code : Nat) : Transaction := ⟨.cmd, BitVec.ofNat 18 code⟩

/-- The transaction (DAT, w). -/
def Sys2Proof.Expect.dat (w : Nat) : Transaction := ⟨.dat, BitVec.ofNat 18 w⟩

/-- The state after an operation whose frames are `ts` and then `last`: the frames' transactions and their seven pin events
each are appended in order, the pins stand as the last frame leaves them, the block is Idle, and every other field is as before
(R90, R53). -/
def Sys2Proof.Expect.afterFrames (ts : List Transaction) (last : Transaction) (s : State) : State :=
  { s with
    phase := .idle, pinStep := 0,
    csx := !s.cfg.csActive,
    dcx := (match last.kind with | .cmd => s.cfg.dcxCmd | .dat => !s.cfg.dcxCmd),
    wrx := true, d := last.word,
    trace := s.trace ++ ts ++ [last],
    pins := s.pins ++ (ts ++ [last]).flatMap (frameEvents s.cfg) }

/-- SETWIN's transactions before the Memory-Write, for the column pair and the page pair it sends: CASET, start and end of the
column, PASET, start and end of the page, each value high byte first (R102, R103). -/
def Sys2Proof.Expect.windowFrames (c0 c1 p0 p1 : Coord) : List Transaction :=
  [Expect.cmd 0x2A,
    Expect.dat (c0.toNat / 256), Expect.dat (c0.toNat % 256), Expect.dat (c1.toNat / 256), Expect.dat (c1.toNat % 256),
    Expect.cmd 0x2B,
    Expect.dat (p0.toNat / 256), Expect.dat (p0.toNat % 256), Expect.dat (p1.toNat / 256), Expect.dat (p1.toNat % 256)]

/-- The orientation byte of each rotation (R111). -/
def Sys2Proof.Expect.orientation : Nat → Nat
  | 0 => 0x48
  | 1 => 0x28
  | 2 => 0x88
  | _ => 0xE8

/-- The state after a refusal: only the mark and its record change (R141). -/
def Sys2Proof.Expect.afterRefusal (reason : RefusalReason) (word : Nat) (s : State) : State :=
  { s with refused := true, refusals := s.refusals ++ [⟨reason, BitVec.ofNat 75 word⟩] }

/-- The state in which an accepted request is decoded: S.req latched, the port let go of (R66). -/
def Sys2Proof.Expect.accepted (s : State) : State := { s with req := s.reqIn, reqValid := false }

/-- The numbers of the request fields that must be zero, as bits of the request word (R65): true if one of them is not. -/
abbrev Sys2Proof.Expect.reservedBit (w : Nat) : Prop :=
  (w % 8 = 1 ∧ w / 2 ^ 11 ≠ 0) ∨ (w % 8 = 2 ∧ w / 2 ^ 21 ≠ 0) ∨ (w % 8 = 4 ∧ w / 2 ^ 21 ≠ 0) ∨
    (w % 8 = 3 ∧ (w / 2 ^ 19 % 4 ≠ 0 ∨ w / 2 ^ 37 % 4 ≠ 0 ∨ w / 2 ^ 55 % 4 ≠ 0 ∨ w / 2 ^ 73 ≠ 0))

/-- The state after a client event: the program goes on with `rest`, and the event is recorded behind the transactions emitted so
far (R129). -/
def Sys2Proof.Expect.afterClientEvent (e : ClientEvent) (rest : List ClientAction) (s : State) : State :=
  { s with client := { s.client with program := rest, events := s.client.events ++ [⟨s.trace.length, e⟩] } }

/-- The platform's reset input one step later, when no reset arrives in the step: the count to the next one is one less (R160). -/
def Sys2Proof.Expect.countedDown : List Nat → List Nat
  | [] => []
  | 0 :: rest => 0 :: rest
  | (k + 1) :: rest => k :: rest

/-- The state in which a step without a reset makes its move: only the count to the next reset has changed. -/
def Sys2Proof.Expect.ticked (s : State) : State := { s with resets := Expect.countedDown s.resets }

/-- R135: a lifecycle call in a lifecycle state from which R130 to R134 give it no transition. -/
def Sys2Proof.Expect.noTransition (c : Call) (l : Lifecycle) : Prop :=
  (∃ rotation, c = .init rotation ∧ l ≠ .reset) ∨
  (c = .blank ∧ l ≠ .awakeDisplaying) ∨
  (c = .unblank ∧ l ≠ .awakeBlanked) ∨
  (c = .sleep ∧ l ≠ .awakeDisplaying ∧ l ≠ .awakeBlanked) ∨
  (c = .wakeUp ∧ l ≠ .asleep)

/-- R127: a call that the spec gives no sequence. -/
def Sys2Proof.Expect.noSequence (c : Call) : Prop := c = .drawLine ∨ c = .drawCircle ∨ c = .fillCircle

/-- The transaction that an event of the client-level trace is, if it is one of the block's. -/
def Sys2Proof.Expect.busOf : ClientEvent → Option Transaction
  | .bus t => some t
  | .resetPulse => none
  | .wait _ => none

/-- An event of the client-level trace that is the client's own. -/
def Sys2Proof.Expect.ownOf : ClientEvent → Option ClientEvent
  | .bus _ => none
  | .resetPulse => some .resetPulse
  | .wait t => some (.wait t)

/-- The client action that presents this request word. -/
def Sys2Proof.Expect.req (w : Nat) : ClientAction := .request (BitVec.ofNat 75 w)

/-! ### Encoding -/

/-- Decode and encode agree: every well-formed instruction's request word decodes to it, at every value of its operands. The
request word is the spec's own decision (D2, D3); that a listed code decodes to its name and not to WRCMD is log entry 2. -/
def Obligations.DecodeInvertsEncode : Prop :=
  ∀ i : Instr, i.wellFormed = true → ∃ w, encode i = some w ∧ decode w = .ok i

/-- Each request word that decodes has one meaning: its instruction is well-formed and encodes to it. The request word is the
spec's own decision (D2, D3, D4); the one spelling of a listed code is log entry 2. -/
def Obligations.EncodeInvertsDecode : Prop :=
  ∀ (w : Request) (i : Instr), decode w = .ok i → i.wellFormed = true ∧ encode i = some w

/-- The layout of the request word in numbers: every operand in its field, the op code in the low three bits. The word is the
spec's own decision (D2). -/
def Obligations.RequestWordInNumbers : Prop :=
  (∀ (op : BitVec 3) (a0 a1 a2 a3 : Word18),
    (packRequest op a0 a1 a2 a3).toNat =
      op.toNat ||| (a0.toNat <<< 3) ||| (a1.toNat <<< 21) ||| (a2.toNat <<< 39) ||| (a3.toNat <<< 57)) ∧
  (∀ (op : BitVec 3) (a0 a1 a2 a3 : Word18),
    reqOp (packRequest op a0 a1 a2 a3) = op ∧ reqA0 (packRequest op a0 a1 a2 a3) = a0 ∧
    reqA1 (packRequest op a0 a1 a2 a3) = a1 ∧ reqA2 (packRequest op a0 a1 a2 a3) = a2 ∧
    reqA3 (packRequest op a0 a1 a2 a3) = a3)

/-- Decoding turns on the op code and the should-be-zero bits alone: RESERVED_BITS exactly when one of the bits of R65 is 1;
each reserved op code is told apart before any other bit is looked at; the other words give the operation with its operands. The
spec's own decisions D3 and D4. -/
def Obligations.DecodeByOpAndReservedBits : Prop :=
  ∀ w : Request,
    (decode w = .error .reservedBits ↔ Expect.reservedBit w.toNat) ∧
    (w.toNat % 8 = 0 → decode w = .ok (.reservedOp0 (BitVec.ofNat 72 (w.toNat / 8)))) ∧
    (w.toNat % 8 = 5 → decode w = .ok (.reservedOp5 (BitVec.ofNat 72 (w.toNat / 8)))) ∧
    (w.toNat % 8 = 6 → decode w = .ok (.reservedOp6 (BitVec.ofNat 72 (w.toNat / 8)))) ∧
    (w.toNat % 8 = 7 → decode w = .ok (.reservedOp7 (BitVec.ofNat 72 (w.toNat / 8)))) ∧
    (w.toNat % 8 = 2 → ¬ Expect.reservedBit w.toNat → decode w = .ok (.wrdat (BitVec.ofNat 18 (w.toNat / 8)))) ∧
    (w.toNat % 8 = 3 → ¬ Expect.reservedBit w.toNat →
      decode w = .ok (.setwin (BitVec.ofNat 16 (w.toNat / 2 ^ 3)) (BitVec.ofNat 16 (w.toNat / 2 ^ 21))
        (BitVec.ofNat 16 (w.toNat / 2 ^ 39)) (BitVec.ofNat 16 (w.toNat / 2 ^ 57)))) ∧
    (w.toNat % 8 = 4 → ¬ Expect.reservedBit w.toNat → decode w = .ok (.setrot (BitVec.ofNat 18 (w.toNat / 8))))

/-- Request words of the spec's own programs and vectors, written out there, decode to the statements they stand for. The word
is the spec's own decision (D2); that 0x151 decodes to CASET is log entry 2. -/
def Obligations.SpecRequestWordsDecode : Prop :=
  decode 0x00000000000000007F9 = .ok (.wrcmd 0xFF) ∧
  decode 0x0000000000000000151 = .ok .caset ∧
  decode 0x00000000000001FFFFA = .ok (.wrdat 0x3FFFF) ∧
  decode 0x0000A00050000A00053 = .ok (.setwin 10 5 10 5) ∧
  decode 0x00202008000200007FB = .ok (.setwin 0x00FF 0x0100 0x0100 0x0101) ∧
  decode 0x000000000000000080C = .ok (.setrot 0x101) ∧
  decode 0x0000000000000000028 = .ok (.reservedOp0 5) ∧
  decode 0x000000000000020002A = .error .reservedBits

/-- A decoder of the trace recognises a command by all 18 bits of the word, with DCX at command level. R71 is marked as the
spec's own inference. -/
def Obligations.BusCommandByExactMatch : Prop :=
  ∀ (t : Transaction) (i : Instr),
    decodeBusCommand t = some i ↔
      t.kind = .cmd ∧
      (i = .slpin ∧ t.word = 0x10 ∨ i = .slpout ∧ t.word = 0x11 ∨ i = .dispoff ∧ t.word = 0x28 ∨
       i = .dispon ∧ t.word = 0x29 ∨ i = .caset ∧ t.word = 0x2A ∨ i = .paset ∧ t.word = 0x2B ∨
       i = .ramwr ∧ t.word = 0x2C ∨ i = .madctl ∧ t.word = 0x36 ∨ i = .pixfmt ∧ t.word = 0x3A ∨
       i = .ifmode ∧ t.word = 0xB0)

/-! ### The step and the request port -/

/-- A step of a block that can accept runs the decoded instruction, in the state with the request latched. That one step runs
the whole operation is log entry 9; the handshake is the spec's own decision (D2). -/
def Obligations.StepRunsDecodedInstruction : Prop :=
  ∀ (s : State) (i : Instr), s.Accepting → decode s.reqIn = .ok i → step s = exec i (Expect.accepted s)

/-- While a block reset is due, the block makes one move a step: the next pin write of a busy block; the acceptance of a request,
which stops at the start of its frames; an instruction without frames whole. That a step is this long is log entry 9. -/
def Obligations.StepBeforeADueReset : Prop :=
  ∀ (s : State) (k : Nat) (rest : List Nat), s.resets = (k + 1) :: rest →
    (∀ (op : Op) (n : Nat), s.phase = .busy op n → step s = .next (tick { s with resets := k :: rest })) ∧
    (∀ (i : Instr) (op : Op), s.phase = .idle → s.reqValid = true → decode s.reqIn = .ok i → startsOp i s = some op →
      step s = .next { Expect.accepted { s with resets := k :: rest } with phase := .busy op 0, pinStep := 0 }) ∧
    (∀ i : Instr, s.phase = .idle → s.reqValid = true → decode s.reqIn = .ok i → startsOp i s = none →
      step s = exec i (Expect.accepted { s with resets := k :: rest }))

/-- A table row's word, placed for the next fetch, is what the next step runs; for a bus command too. Which of its two formats a
table word has is log entry 3; what stands for a fetch is log entry 10. -/
def Obligations.FetchedTableWordRuns : Prop :=
  ∀ (s : State) (nbits w : Nat) (i : Instr), decodeTableWord nbits w = some i →
    ∃ r, encode i = some r ∧
      step (s.withFetchWord nbits w) = exec i { s with phase := .idle, resets := [], reqIn := r, req := r, reqValid := false }

/-- The request WRCMD c sends (CMD, c) for every code c, listed or not, whichever of its two spellings the decoder gives it. The
request word is the spec's own decision (D2). -/
def Obligations.EveryCommandCodeIsSent : Prop :=
  ∀ (s : State) (c : Byte), s.Accepting → s.reqIn = BitVec.ofNat 75 (1 + 8 * c.toNat) →
    step s = .next (Expect.afterFrames [] (Expect.cmd c.toNat) (Expect.accepted s))

/-- A request word that spells no operation is accepted and dropped: nothing changes but the latch of the acceptance, the
refusal mark and its record; the mark is never cleared. The spec's own decision D4; that S.req is latched for a refused word
too, and that the machine goes on, is log entry 5. -/
def Obligations.RefusedRequestIsDropped : Prop :=
  (∀ s : State, s.Accepting → (s.reqIn.toNat % 8 = 0 ∨ s.reqIn.toNat % 8 = 5 ∨ s.reqIn.toNat % 8 = 6 ∨ s.reqIn.toNat % 8 = 7) →
    step s = .next (Expect.afterRefusal .reservedOp s.reqIn.toNat (Expect.accepted s))) ∧
  (∀ s : State, s.Accepting → Expect.reservedBit s.reqIn.toNat →
    step s = .next (Expect.afterRefusal .reservedBits s.reqIn.toNat (Expect.accepted s))) ∧
  (∀ s t : State, step s = .next t → s.refused = true → t.refused = true)

/-- While the block is busy and no reset arrives it accepts nothing: the request on the port is held, and neither the latch nor
the client moves. When it is idle it accepts the request on its port. With none there, S.req stays. The handshake is the spec's
own decision D2. That S.req stays also where the step is a block reset is log entry 16: R20 and R36 leave it unspecified. -/
def Obligations.RequestHeldUntilIdle : Prop :=
  (∀ (s : State) (op : Op) (n : Nat), s.phase = .busy op n → s.resets.head? ≠ some 0 →
    ∃ t, step s = .next t ∧ t.reqValid = s.reqValid ∧ t.reqIn = s.reqIn ∧ t.req = s.req ∧ t.client = s.client) ∧
  (∀ (s : State) (i : Instr), s.Accepting → decode s.reqIn = .ok i →
    ∃ t, step s = .next t ∧ t.req = s.reqIn ∧ t.reqValid = false ∧ t.phase = .idle) ∧
  (∀ s t : State, s.phase = .idle → s.reqValid = false → step s = .next t → t.req = s.req)

/-- A block reset that is due comes before the operation in progress, a request on the port and the client; a reserved op code
is reported as RESERVED_OP whatever its other bits; a refused SETWIN raises no fault even while S.ROT is Unset. R144 is marked
as the spec's own inference. That a due reset comes before a request on the port and before the client's move too is log entry
9: R144 puts it before the operation in progress only. -/
def Obligations.PriorityOfEvents : Prop :=
  (∀ (s : State) (rest : List Nat), s.resets = 0 :: rest →
    ∃ t, step s = .next t ∧ t.phase = .idle ∧ t.trace = s.trace ∧ t.rot = s.cfg.rotReset ∧ t.reqValid = s.reqValid ∧
      t.pins = s.pins ++ [.csx (!s.cfg.csActive), .wrx true]) ∧
  (∀ s : State, s.Accepting → (s.reqIn.toNat % 8 = 0 ∨ s.reqIn.toNat % 8 = 5 ∨ s.reqIn.toNat % 8 = 6 ∨ s.reqIn.toNat % 8 = 7) →
    ∃ t, step s = .next t ∧ t.refusals = s.refusals ++ [⟨.reservedOp, s.reqIn⟩] ∧ t.fault = s.fault) ∧
  (∀ s : State, s.Accepting → s.reqIn.toNat % 8 = 3 → Expect.reservedBit s.reqIn.toNat →
    ∃ t, step s = .next t ∧ t.refusals = s.refusals ++ [⟨.reservedBits, s.reqIn⟩] ∧ t.fault = s.fault)

/-! ### What each instruction does, with its frame (every field not named is unchanged) -/

/-- BusWrite: clear D, set D to w, strobe WRX low then high; no transaction, no other pin, no other field. That this holds also
where the precondition of R80 (CSX asserted, DCX set, WRX high) fails is log entry 14; that the 18 line writes are one event is
the spec's own decision D8 (log entry 12). -/
def Obligations.BusWriteClearsSetsAndStrobes : Prop :=
  ∀ (s : State) (w : Word18),
    exec (.busWrite w) s =
      .next { s with d := w, wrx := true, pins := s.pins ++ [.d 0, .d w, .wrx false, .wrx true] }

/-- One framed write: seven pin events in order, one transaction, chip-select deasserted at its end, DCX left at its level, one
frame counted. -/
def Obligations.FramedWriteInOrder : Prop :=
  (∀ (s : State) (t : Transaction) (op : Op) (n : Nat), s.phase = .busy op n →
    frame t s =
      { s with
        csx := !s.cfg.csActive,
        dcx := (match t.kind with | .cmd => s.cfg.dcxCmd | .dat => !s.cfg.dcxCmd),
        wrx := true, d := t.word, trace := s.trace ++ [t],
        pins := s.pins ++
          [.csx s.cfg.csActive, .dcx (match t.kind with | .cmd => s.cfg.dcxCmd | .dat => !s.cfg.dcxCmd), .d 0, .d t.word,
            .wrx false, .wrx true, .csx (!s.cfg.csActive)],
        phase := .busy op (n + 1) })

/-- WRCMD c: one command frame, then Idle, for every code. -/
def Obligations.WrcmdSendsOneCommand : Prop :=
  ∀ (s : State) (c : Byte), exec (.wrcmd c) s = .next (Expect.afterFrames [] (Expect.cmd c.toNat) s)

/-- WRDAT w: one data frame with all 18 bits of w, then Idle. -/
def Obligations.WrdatSendsOneDataWord : Prop :=
  ∀ (s : State) (w : Word18), exec (.wrdat w) s = .next (Expect.afterFrames [] (Expect.dat w.toNat) s)

/-- Each of the ten command codes goes on the bus as a command transaction of its number. -/
def Obligations.CommandCodesOnTheBus : Prop :=
  ∀ s : State,
    exec .slpin s = .next (Expect.afterFrames [] (Expect.cmd 0x10) s) ∧
    exec .slpout s = .next (Expect.afterFrames [] (Expect.cmd 0x11) s) ∧
    exec .dispoff s = .next (Expect.afterFrames [] (Expect.cmd 0x28) s) ∧
    exec .dispon s = .next (Expect.afterFrames [] (Expect.cmd 0x29) s) ∧
    exec .caset s = .next (Expect.afterFrames [] (Expect.cmd 0x2A) s) ∧
    exec .paset s = .next (Expect.afterFrames [] (Expect.cmd 0x2B) s) ∧
    exec .ramwr s = .next (Expect.afterFrames [] (Expect.cmd 0x2C) s) ∧
    exec .madctl s = .next (Expect.afterFrames [] (Expect.cmd 0x36) s) ∧
    exec .pixfmt s = .next (Expect.afterFrames [] (Expect.cmd 0x3A) s) ∧
    exec .ifmode s = .next (Expect.afterFrames [] (Expect.cmd 0xB0) s)

/-- SETWIN with a rotation: Portrait-like sends column = (x0, x1) and page = (y0, y1), Landscape-like sends column = (y0, y1)
and page = (x0, x1); the column sequence first, start before end, high byte first, Memory-Write last; no coordinate is checked.
Column before page and start before end are the spec's own decisions D12 and D13. -/
def Obligations.SetwinMapsAxesByRotation : Prop :=
  ∀ (s : State) (x0 y0 x1 y1 : Coord),
    (s.rot = some 0 ∨ s.rot = some 2 →
      exec (.setwin x0 y0 x1 y1) s = .next (Expect.afterFrames (Expect.windowFrames x0 x1 y0 y1) (Expect.cmd 0x2C) s)) ∧
    (s.rot = some 1 ∨ s.rot = some 3 →
      exec (.setwin x0 y0 x1 y1) s = .next (Expect.afterFrames (Expect.windowFrames y0 y1 x0 x1) (Expect.cmd 0x2C) s))

/-- The axis map: Portrait and Portrait-Inverted give column = (x0, x1) and page = (y0, y1); Landscape and Landscape-Inverted give
column = (y0, y1) and page = (x0, x1). So SETWIN sends in the Landscape rotations what it sends in Portrait for the coordinates
with their axes swapped, and an inverted rotation sends what its partner does. -/
def Obligations.AxesSwapInLandscape : Prop :=
  ∀ (s : State) (x0 y0 x1 y1 : Coord),
    (axisMap 0 x0 y0 x1 y1 = ⟨x0, x1, y0, y1⟩ ∧ axisMap 1 x0 y0 x1 y1 = ⟨y0, y1, x0, x1⟩ ∧
      axisMap 2 x0 y0 x1 y1 = ⟨x0, x1, y0, y1⟩ ∧ axisMap 3 x0 y0 x1 y1 = ⟨y0, y1, x0, x1⟩) ∧
    ∃ t, exec (.setwin x0 y0 x1 y1) { s with rot := some 0 } = .next t ∧
      exec (.setwin x0 y0 x1 y1) { s with rot := some 2 } = .next { t with rot := some 2 } ∧
      exec (.setwin y0 x0 y1 x1) { s with rot := some 1 } = .next { t with rot := some 1 } ∧
      exec (.setwin y0 x0 y1 x1) { s with rot := some 3 } = .next { t with rot := some 3 }

/-- SETWIN while S.ROT is Unset records ROT_UNSET and emits nothing; the block is Idle again and no pin has moved. The spec's
own decision D10; that the machine goes on is log entry 5. -/
def Obligations.SetwinBeforeSetrotFaults : Prop :=
  ∀ (s : State) (x0 y0 x1 y1 : Coord), s.rot = none →
    exec (.setwin x0 y0 x1 y1) s = .next { s with fault := s.fault ++ [.rotUnset], phase := .idle, pinStep := 0 }

/-- SETROT r_in: Memory-Access-Control, the orientation byte of the clamped rotation, and S.ROT takes the clamped rotation. That
S.ROT is written after both frames is the spec's own decision D15. -/
def Obligations.SetrotSendsByteAndSetsRot : Prop :=
  ∀ (s : State) (rIn : Word18),
    exec (.setrot rIn) s =
      .next { Expect.afterFrames [Expect.cmd 0x36]
                (Expect.dat (Expect.orientation (if rIn.toNat > 3 then 0 else rIn.toNat))) s with
              rot := some (BitVec.ofNat 2 (if rIn.toNat > 3 then 0 else rIn.toNat)) }

/-- The clamp: every rotation input above 3 behaves as 0, and the byte sent is 0x48. -/
def Obligations.SetrotClampsToPortrait : Prop :=
  ∀ (s : State) (rIn : Word18), rIn.toNat > 3 →
    ∃ t, exec (.setrot rIn) s = .next t ∧ exec (.setrot 0) s = .next t ∧
      t.trace = s.trace ++ [Expect.cmd 0x36, Expect.dat 0x48] ∧ t.rot = some 0

/-- The four reserved op codes: the refusal is marked with the word, and nothing else changes. The spec's own decisions D3 and
D4; that the machine goes on is log entry 5. -/
def Obligations.ReservedOpsAreMarkedRefused : Prop :=
  ∀ (s : State) (rest : BitVec 72),
    exec (.reservedOp0 rest) s = .next (Expect.afterRefusal .reservedOp (8 * rest.toNat) s) ∧
    exec (.reservedOp5 rest) s = .next (Expect.afterRefusal .reservedOp (8 * rest.toNat + 5) s) ∧
    exec (.reservedOp6 rest) s = .next (Expect.afterRefusal .reservedOp (8 * rest.toNat + 6) s) ∧
    exec (.reservedOp7 rest) s = .next (Expect.afterRefusal .reservedOp (8 * rest.toNat + 7) s)

/-- The orientation byte table. -/
def Obligations.OrientationByteTable : Prop :=
  madctlByte 0 = 0x48 ∧ madctlByte 1 = 0x28 ∧ madctlByte 2 = 0x88 ∧ madctlByte 3 = 0xE8

/-- A command transaction carries its code in bits 7..0 and zero above, and nothing of the word before it. R43 is marked as the
spec's own inference. -/
def Obligations.CommandWordHasOnlyTheCode : Prop :=
  ∀ (s : State) (c : Byte), ∃ t w, exec (.wrcmd c) s = .next t ∧ t.trace = s.trace ++ [⟨.cmd, w⟩] ∧ t.d = w ∧
    (∀ j : Nat, j < 8 → w.getLsbD j = c.getLsbD j) ∧ (∀ j : Nat, 8 ≤ j → w.getLsbD j = false)

/-- A 16-bit value goes out high byte first, each byte alone in its word, and a receiver that reads (hi << 8) | lo gets it back.
What the receiver reads is marked as the spec's own inference (R46). -/
def Obligations.CoordinateBytesReadBack : Prop :=
  ∀ v : Coord,
    coordBytes v = [Expect.dat (v.toNat / 256), Expect.dat (v.toNat % 256)] ∧
    receiveCoord (BitVec.ofNat 8 (v.toNat / 256)) (BitVec.ofNat 8 (v.toNat % 256)) = v

/-- After the axis mapping, in-range logical coordinates give column values in 0..319 and page values in 0..479, in every
rotation. Marked as the spec's own inference (R45). -/
def Obligations.MappedWindowStaysOnTheCanvas : Prop :=
  ∀ (r : Rotation) (x0 y0 x1 y1 : Coord),
    x0.toNat < canvasWidth r → x1.toNat < canvasWidth r → y0.toNat < canvasHeight r → y1.toNat < canvasHeight r →
    (axisMap r x0 y0 x1 y1).c0.toNat ≤ 319 ∧ (axisMap r x0 y0 x1 y1).c1.toNat ≤ 319 ∧
    (axisMap r x0 y0 x1 y1).p0.toNat ≤ 479 ∧ (axisMap r x0 y0 x1 y1).p1.toNat ≤ 479

/-- The status outputs: ready exactly when Idle; rot_out is S.ROT once it is set; the canvas size from it. The spec's own
decisions D2 and D22. -/
def Obligations.StatusOutputs : Prop :=
  (∀ s : State, ready s = true ↔ s.phase = .idle) ∧
  (∀ (s : State) (r : Rotation), s.rot = some r → rotOut s = r) ∧
  (canvasWidth 0 = 320 ∧ canvasHeight 0 = 480 ∧ canvasWidth 2 = 320 ∧ canvasHeight 2 = 480) ∧
  (canvasWidth 1 = 480 ∧ canvasHeight 1 = 320 ∧ canvasWidth 3 = 480 ∧ canvasHeight 3 = 320)

/-- Operation lengths: how many transactions and pin events each operation adds, and that a refused request adds none. R73 and
R172 are marked as the spec's own inference. -/
def Obligations.OperationLengths : Prop :=
  ∀ (s t : State) (i : Instr), exec i s = .next t →
    match i with
    | .setwin _ _ _ _ =>
      (s.rot.isSome = true → t.trace.length = s.trace.length + 11 ∧ t.pins.length = s.pins.length + 77) ∧
      (s.rot = none → t.trace = s.trace ∧ t.pins = s.pins)
    | .setrot _ => t.trace.length = s.trace.length + 2 ∧ t.pins.length = s.pins.length + 14
    | .reservedOp0 _ | .reservedOp5 _ | .reservedOp6 _ | .reservedOp7 _ => t.trace = s.trace ∧ t.pins = s.pins
    | .busWrite _ => t.trace = s.trace ∧ t.pins.length = s.pins.length + 4
    | .wrcmd _ | .wrdat _ | .slpin | .slpout | .dispoff | .dispon | .caset | .paset | .ramwr | .madctl | .pixfmt | .ifmode =>
      t.trace.length = s.trace.length + 1 ∧ t.pins.length = s.pins.length + 7

/-! ### Rules of the whole machine -/

/-- The block raises no exception: every instruction, in every state, answers a next state. That the block's refusals and faults
are marks of a run that goes on is log entry 5. -/
def Obligations.NoInstructionStops : Prop :=
  ∀ (i : Instr) (s : State), ∃ t, exec i s = .next t

/-- A step stops only at a move of the client: a lifecycle call in a lifecycle state that gives it no transition (R135), the
move after a transition that a reset interrupted, or a call for a shape the spec gives no sequence (R127). The model's choice
that these stop is named in log entry 8. -/
def Obligations.OnlyTheClientStops : Prop :=
  (∀ (s : State) (f : Fault), step s = .fault f →
    s.phase = .idle ∧ s.reqValid = false ∧
    (s.client.interrupted = true ∧ f = .transitionInterrupted ∨
     s.client.interrupted = false ∧ f = .undefinedTransition ∧
       ∃ c rest, s.client.program = .call c :: rest ∧ Expect.noTransition c s.client.lifecycle)) ∧
  (∀ (s : State) (r : Refusal), step s = .refused r →
    s.phase = .idle ∧ s.reqValid = false ∧ s.client.interrupted = false ∧ r = .noClientSequence ∧
    ∃ c rest, s.client.program = .call c :: rest ∧ Expect.noSequence c)

/-- The invariant every step keeps: the sequencer is where S.phase says; inside a frame DCX and D stand as the frame has set
them; and the pin record, read as the controller reads it, has latched exactly the trace, in order. The latching edge is the
spec's own decision (D7); that a frame counts from the rise of WRX is log entry 6. -/
def Obligations.PinRecordLatchesTheTrace : Prop :=
  ∀ s t : State, s.Inv → step s = .next t → t.Inv

/-- The invariant, and the one of the client's marks, hold after power-on, on every board and for every level of the pins that
reset does not drive. The reset values are the spec's own decision (D10); DCX and D take any value here, whatever log entry 1
chose. -/
def Obligations.InvariantAfterPowerOn : Prop :=
  (∀ (cfg : Config) (dcx : Level) (d : Word18),
    (State.afterPowerOn cfg dcx d).Inv ∧ (State.afterPowerOn cfg dcx d).MarksInTrace) ∧
  State.reset.Inv ∧ State.reset.MarksInTrace

/-- Idle pin levels: whenever the block is idle, chip-select is deasserted and WRX is high. Every step keeps this (with the
place of the sequencer), block reset makes it so from any state, and every framed write ends so. R29 is marked as the spec's own
inference. -/
def Obligations.IdlePinsHold : Prop :=
  (∀ s t : State, s.SequencerOk → step s = .next t → t.SequencerOk ∧ (t.phase = .idle → t.csx = !t.cfg.csActive ∧ t.wrx = true)) ∧
  (∀ s : State, (blockReset s).csx = !s.cfg.csActive ∧ (blockReset s).wrx = true) ∧
  (∀ (s : State) (t : Transaction), (frame t s).csx = !s.cfg.csActive ∧ (frame t s).wrx = true)

/-- The trace, the pin record and the marks only grow, in every step; the board's parameters never change. The marks are the
spec's own decision (D16). -/
def Obligations.RecordsOnlyGrow : Prop :=
  ∀ s t : State, step s = .next t →
    s.trace <+: t.trace ∧ s.pins <+: t.pins ∧ s.fault <+: t.fault ∧ s.refusals <+: t.refusals ∧
    (s.refused = true → t.refused = true) ∧ t.cfg = s.cfg

/-- S.ROT keeps its value until the next SETROT or block reset: no other instruction writes it, and a step that changes it takes a
due reset, accepts a SETROT, or ends one. -/
def Obligations.RotationKeptUntilSetrotOrReset : Prop :=
  (∀ (s t : State) (i : Instr), exec i s = .next t → (∀ r, i ≠ .setrot r) → t.rot = s.rot) ∧
  (∀ s t : State, step s = .next t → t.rot ≠ s.rot →
    s.resets.head? = some 0 ∨ (s.phase = .idle ∧ s.reqValid = true ∧ s.reqIn.toNat % 8 = 4) ∨ (∃ n, s.phase = .busy .setrot n))

/-- While the strobe is low, D, DCX and CSX do not change, D is the word of the frame in progress, and CSX is asserted. R82
marks this as the spec's own inference. That the rise of WRX appends the frame's transaction to S.trace is log entry 6, read
from R42 and R90. -/
def Obligations.LinesStableWhileStrobeLow : Prop :=
  ∀ (s : State) (op : Op) (n : Nat), s.Inv → s.phase = .busy op n → s.wrx = false →
    ∃ tr, (opTransactions s op)[n]? = some tr ∧ s.d = tr.word ∧ s.csx = s.cfg.csActive ∧
      (tick s).d = s.d ∧ (tick s).dcx = s.dcx ∧ (tick s).csx = s.csx ∧ (tick s).wrx = true ∧ (tick s).trace = s.trace ++ [tr]

/-- The operation run pin write by pin write, from its acceptance to Idle, is the operation run whole: seven moves a frame and
one to end. The two lengths of a step are log entry 9. -/
def Obligations.SequencerMatchesWholeOperation : Prop :=
  ∀ (s : State) (i : Instr) (op : Op), decode s.reqIn = .ok i → startsOp i s = some op →
    exec i (latchRequest s) = .next (tick^[7 * frameCount op + 1] (beginOp op (latchRequest s)))

/-- The levels that stand for 'asserted' and 'command' do not matter at the level of transactions: two boards that differ in
them alone make the same trace, rotation, phase and marks of every instruction. The levels are the spec's own decisions D5 and
D6. -/
def Obligations.BoardLevelsDoNotShowInTheTrace : Prop :=
  ∀ (s t u : State) (i : Instr) (cs dc : Level), exec i s = .next t →
    exec i { s with cfg := { s.cfg with csActive := cs, dcxCmd := dc } } = .next u →
    u.trace = t.trace ∧ u.rot = t.rot ∧ u.phase = t.phase ∧ u.fault = t.fault ∧ u.refused = t.refused ∧
    u.refusals = t.refusals ∧ u.d = t.d ∧ u.pins.length = t.pins.length

/-- DCX and D are written before they are read: an instruction that starts an operation leaves the same state whatever stood on
the two before it. The ground the spec's own decision D10 gives for leaving the two undriven at reset. -/
def Obligations.OldLineLevelsDoNotMatter : Prop :=
  ∀ (s : State) (i : Instr) (op : Op) (dcx : Level) (d : Word18), startsOp i s = some op →
    exec i { s with dcx := dcx, d := d } = exec i s

/-! ### Reset -/

/-- Block reset: chip-select deasserted, then the strobe released, Idle, S.ROT at ROT_RESET; DCX and D keep their levels; a
running operation is marked aborted; at power-on it starts a new run, and its two events are the first entries of S.pins; a
reset that finds WRX low latches nothing. The spec's own decisions D10, D21 and D25; which of R36 and R160 S.pins follows at
power-on is log entry 7. That S.req keeps its word is log entry 16: R20 and R36 leave it unspecified. -/
def Obligations.BlockResetEffect : Prop :=
  (∀ s : State, s.phase = .idle →
    blockReset s =
      { s with phase := .idle, pinStep := 0, rot := s.cfg.rotReset, csx := !s.cfg.csActive, wrx := true,
               pins := s.pins ++ [.csx (!s.cfg.csActive), .wrx true] }) ∧
  (∀ (s : State) (op : Op) (n : Nat), s.phase = .busy op n →
    blockReset s =
      { s with phase := .idle, pinStep := 0, rot := s.cfg.rotReset, csx := !s.cfg.csActive, wrx := true,
               pins := s.pins ++ [.csx (!s.cfg.csActive), .wrx true], fault := s.fault ++ [.aborted] }) ∧
  (∀ (cfg : Config) (csx dcx wrx : Level) (d : Word18),
    blockReset (freshRun cfg csx dcx wrx d) = State.afterPowerOn cfg dcx d) ∧
  (∀ (cfg : Config) (p : Probe), (Probe.replay cfg p [.csx (!cfg.csActive), .wrx true]).latched = p.latched)

/-- A reset during an operation: the operation stops, ABORTED is recorded, and the trace keeps exactly the transactions latched
so far. After m pin writes of the operation those are the first (m + 1) / 7 of its transactions. (That a frame whose strobe has
risen counts, although its CSX is not yet deasserted, is log entry 6.) Keeping the part sent is the spec's own decision D21. -/
def Obligations.ResetKeepsThePartSent : Prop :=
  ∀ (s : State) (op : Op) (m : Nat), (op = .setwin → s.rot.isSome = true) → m ≤ 7 * frameCount op →
    (blockReset (tick^[m] (beginOp op s))).trace = s.trace ++ (opTransactions s op).take ((m + 1) / 7) ∧
    (blockReset (tick^[m] (beginOp op s))).fault = s.fault ++ [.aborted] ∧
    (blockReset (tick^[m] (beginOp op s))).phase = .idle

/-! ### The client -/

/-- Colours of any width are masked to 18 bits before they are placed in a request. -/
def Obligations.ColoursAreMaskedTo18Bits : Prop :=
  ∀ (s : State) (c : Nat),
    (maskColor c).toNat = c &&& 0x3FFFF ∧
    exec (.wrdat (maskColor c)) s = .next (Expect.afterFrames [] (Expect.dat (c &&& 0x3FFFF)) s)

/-- fillRect and drawRect: one SETWIN of the bounding box, the ends modulo 2^16, then exactly w*h WRDATs of the masked colour.
The arithmetic is the spec's own decision D18. -/
def Obligations.FillRectStreamsWidthTimesHeight : Prop :=
  ∀ (x y w h : Coord) (c : Nat) (l : Lifecycle) (r : Rotation),
    plan (.fillRect x y w h c) l r = plan (.drawRect x y w h c) l r ∧
    ∃ p, plan (.fillRect x y w h c) l r = .draw p ∧
      assemble p =
        Expect.req (3 + x.toNat * 2 ^ 3 + y.toNat * 2 ^ 21 + (x.toNat + w.toNat + 65535) % 65536 * 2 ^ 39
          + (y.toNat + h.toNat + 65535) % 65536 * 2 ^ 57) ::
        List.replicate (w.toNat * h.toNat) (Expect.req (2 + (c &&& 0x3FFFF) * 8))

/-- drawPixel is a one-point window and one word; fillBackground is the whole rotated canvas and 153600 words. -/
def Obligations.PixelAndBackgroundSequences : Prop :=
  (∀ (x y : Coord) (c : Nat) (l : Lifecycle) (r : Rotation),
    ∃ p, plan (.drawPixel x y c) l r = .draw p ∧
      assemble p =
        [Expect.req (3 + x.toNat * 2 ^ 3 + y.toNat * 2 ^ 21 + x.toNat * 2 ^ 39 + y.toNat * 2 ^ 57),
          Expect.req (2 + (c &&& 0x3FFFF) * 8)]) ∧
  (∀ (c : Nat) (l : Lifecycle) (r : Rotation),
    ∃ p, plan (.fillBackground c) l r = .draw p ∧
      assemble p =
        Expect.req (3 + (canvasWidth r - 1) * 2 ^ 39 + (canvasHeight r - 1) * 2 ^ 57) ::
        List.replicate 153600 (Expect.req (2 + (c &&& 0x3FFFF) * 8)))

/-- The lifecycle sequences, request word by request word, with their waits and the states they lead to. The request words are
the spec's own decision D2; that the transitions of R131 and R132 are calls named blank and unblank, and that a rotation reaches
init as 18 bits, is log entry 13. -/
def Obligations.LifecycleSequences : Prop :=
  (∀ (rot : Word18) (r : Rotation),
    ∃ p, plan (.init rot) .reset r = .transit p .awakeDisplaying ∧
      assemble p =
        [.resetPulse, Expect.req 0x89, .wait 120, Expect.req 0x1D1, Expect.req 0x332, Expect.req (4 + rot.toNat * 8),
          Expect.req 0x149, .wait 20]) ∧
  (∀ r : Rotation,
    (∃ p, plan .blank .awakeDisplaying r = .transit p .awakeBlanked ∧ assemble p = [Expect.req 0x141, .wait 20]) ∧
    (∃ p, plan .unblank .awakeBlanked r = .transit p .awakeDisplaying ∧ assemble p = [Expect.req 0x149, .wait 20]) ∧
    (∀ l : Lifecycle, l = .awakeDisplaying ∨ l = .awakeBlanked →
      ∃ p, plan .sleep l r = .transit p .asleep ∧
        assemble p = [Expect.req 0x141, .wait 20, Expect.req 0x81, .wait 120]) ∧
    (∃ p, plan .wakeUp .asleep r = .transit p .awakeDisplaying ∧
      assemble p = [Expect.req 0x149, .wait 20, Expect.req 0x89, .wait 20]))

/-- The two client actions that are no requests change no field of the block or of its port; each is one event of the client's
trace, after the transactions emitted so far, and so the last entry of the client-level trace. A reset that is not due in this
step only comes one step nearer. The spec's own decision D20. That a reset pulse leaves the client's Lifecycle State is log
entry 17. -/
def Obligations.ClientEventsLeaveTheBlockAlone : Prop :=
  ∀ (s : State) (rest : List ClientAction) (t : Nat),
    s.phase = .idle → s.reqValid = false → s.resets.head? ≠ some 0 → s.client.interrupted = false →
    (s.client.program = .resetPulse :: rest →
      step s = .next (Expect.afterClientEvent .resetPulse rest (Expect.ticked s)) ∧
      clientTrace (Expect.afterClientEvent .resetPulse rest (Expect.ticked s)) = clientTrace s ++ [.resetPulse]) ∧
    (s.client.program = .wait t :: rest →
      step s = .next (Expect.afterClientEvent (.wait t) rest (Expect.ticked s)) ∧
      clientTrace (Expect.afterClientEvent (.wait t) rest (Expect.ticked s)) = clientTrace s ++ [.wait t])

/-- The client's other moves, in the order of its program: a request goes on the port; a call gives way to its sequence, and
fillBackground alone samples rot_out, so the draw counter goes up by one (log entry 4); a lifecycle transition is marked while
its sequence runs, and at its end the client is in the state the transition leads to; a client with nothing to do does nothing.
A reset that is not due in this step only comes one step nearer. That the client's program and lifecycle stand in State this way
is log entry 13. That only the end of a transition changes the Lifecycle State is log entry 17. -/
def Obligations.ClientMovesInProgramOrder : Prop :=
  ∀ (s : State) (rest : List ClientAction),
    s.phase = .idle → s.reqValid = false → s.resets.head? ≠ some 0 → s.client.interrupted = false →
    (∀ w : Request, s.client.program = .request w :: rest →
      step s = .next { Expect.ticked s with reqValid := true, reqIn := w, client := { s.client with program := rest } }) ∧
    (∀ (c : Call) (p : List Stmt), s.client.program = .call c :: rest → plan c s.client.lifecycle (rotOut s) = .draw p →
      step s = .next { Expect.ticked s with
        draws := (match c with | .fillBackground _ => s.draws + 1 | _ => s.draws),
        client := { s.client with program := assemble p ++ rest } }) ∧
    (∀ (c : Call) (p : List Stmt) (l : Lifecycle), s.client.program = .call c :: rest →
      plan c s.client.lifecycle (rotOut s) = .transit p l →
      step s = .next { Expect.ticked s with client :=
        { s.client with program := assemble p ++ .arrive l :: rest, transition := some l } }) ∧
    (∀ l : Lifecycle, s.client.program = .arrive l :: rest →
      step s = .next { Expect.ticked s with client :=
        { s.client with program := rest, lifecycle := l, transition := none } }) ∧
    (s.client.program = [] → step s = .next (Expect.ticked s))

/-- When the client stops, the other direction of OnlyTheClientStops: with the block idle, its port empty and no reset arriving,
a lifecycle call without a transition and the move after an interrupted transition fault (R135, I3), and a call for a line or a
circle is refused (R127, D19); the pairs without a transition are exactly those for which the client has no plan. That these
stop is log entry 8. That an init after a reset pulse of the client's own is among them is log entry 17. -/
def Obligations.UndefinedClientMovesStop : Prop :=
  (∀ (c : Call) (l : Lifecycle) (r : Rotation),
    (plan c l r = .undefined ↔ Expect.noTransition c l) ∧ (plan c l r = .noSequence ↔ Expect.noSequence c)) ∧
  (∀ s : State, s.phase = .idle → s.reqValid = false → s.resets.head? ≠ some 0 →
    (s.client.interrupted = true → step s = .fault .transitionInterrupted) ∧
    (∀ (c : Call) (rest : List ClientAction), s.client.interrupted = false → s.client.program = .call c :: rest →
      (Expect.noTransition c s.client.lifecycle → step s = .fault .undefinedTransition) ∧
      (Expect.noSequence c → step s = .refused .noClientSequence)))

/-- The client-level trace interleaves with S.trace: its transactions are S.trace and its other entries are the client's events, each
in order; and a step appends to it the transactions it emits, or the one event of the client's move, and nothing else. The invariant
the marks of the client's events keep, which every step keeps, is its premise. The spec's own decision D20; a frame's transaction
counts from the rise of WRX, log entry 6. -/
def Obligations.ClientTraceInterleaves : Prop :=
  (∀ s : State, s.MarksInTrace →
    (clientTrace s).filterMap Expect.busOf = s.trace ∧
    (clientTrace s).filterMap Expect.ownOf = s.client.events.map (fun m => m.event)) ∧
  (∀ s t : State, s.MarksInTrace → step s = .next t →
    t.MarksInTrace ∧
    ((∃ new, t.trace = s.trace ++ new ∧ t.client.events = s.client.events ∧
        clientTrace t = clientTrace s ++ new.map ClientEvent.bus) ∨
     (∃ e, t.trace = s.trace ∧ t.client.events = s.client.events ++ [⟨s.trace.length, e⟩] ∧
        clientTrace t = clientTrace s ++ [e])))

/-! ### A reset that is due -/

/-- The whole effect of a step in which a block reset is due: the block's reset (chip-select deasserted, then the strobe
released, Idle, S.ROT at ROT_RESET, ABORTED recorded if an operation was running), DCX, D, the trace and every other mark kept,
the request on the port held; and a client whose transition had an operation running is interrupted (R135, I3; log entry 8).
That S.req keeps its word is log entry 16, that the step does nothing else is log entry 9; the reset is the spec's own decision
D10 and D21. That the client's Lifecycle State stays is log entry 17. -/
def Obligations.DueResetStep : Prop :=
  ∀ (s : State) (rest : List Nat), s.resets = 0 :: rest →
    (s.phase = .idle →
      step s = .next { s with
        resets := rest, pinStep := 0, rot := s.cfg.rotReset, csx := !s.cfg.csActive, wrx := true,
        pins := s.pins ++ [.csx (!s.cfg.csActive), .wrx true] }) ∧
    (∀ (op : Op) (n : Nat), s.phase = .busy op n →
      step s = .next { s with
        resets := rest, phase := .idle, pinStep := 0, rot := s.cfg.rotReset, csx := !s.cfg.csActive, wrx := true,
        pins := s.pins ++ [.csx (!s.cfg.csActive), .wrx true], fault := s.fault ++ [.aborted],
        client := { s.client with interrupted := s.client.interrupted || s.client.transition.isSome } })
end

