-- ==== Sys2Proof/Laws/State.lean ====
section
/-! SUPPORT. Laws/State.lean: one lemma per field per update of the named operations, true by rfl, so that no proof unfolds a
record update; countFrame, whose phase depends on the phase before, has a lemma of its own. -/

namespace Sys2Proof.Machine

section FieldLaws
variable (s : State)

@[simp] theorem driveCsx_cfg (v : Level) : (drive (.csx v) s).cfg = s.cfg := rfl
@[simp] theorem driveCsx_phase (v : Level) : (drive (.csx v) s).phase = s.phase := rfl
@[simp] theorem driveCsx_req (v : Level) : (drive (.csx v) s).req = s.req := rfl
@[simp] theorem driveCsx_rot (v : Level) : (drive (.csx v) s).rot = s.rot := rfl
@[simp] theorem driveCsx_csx (v : Level) : (drive (.csx v) s).csx = v := rfl
@[simp] theorem driveCsx_dcx (v : Level) : (drive (.csx v) s).dcx = s.dcx := rfl
@[simp] theorem driveCsx_wrx (v : Level) : (drive (.csx v) s).wrx = s.wrx := rfl
@[simp] theorem driveCsx_d (v : Level) : (drive (.csx v) s).d = s.d := rfl
@[simp] theorem driveCsx_trace (v : Level) : (drive (.csx v) s).trace = s.trace := rfl
@[simp] theorem driveCsx_pins (v : Level) : (drive (.csx v) s).pins = s.pins ++ [.csx v] := rfl
@[simp] theorem driveCsx_refused (v : Level) : (drive (.csx v) s).refused = s.refused := rfl
@[simp] theorem driveCsx_fault (v : Level) : (drive (.csx v) s).fault = s.fault := rfl
@[simp] theorem driveCsx_refusals (v : Level) : (drive (.csx v) s).refusals = s.refusals := rfl
@[simp] theorem driveCsx_pinStep (v : Level) : (drive (.csx v) s).pinStep = s.pinStep := rfl
@[simp] theorem driveCsx_reqValid (v : Level) : (drive (.csx v) s).reqValid = s.reqValid := rfl
@[simp] theorem driveCsx_reqIn (v : Level) : (drive (.csx v) s).reqIn = s.reqIn := rfl
@[simp] theorem driveCsx_resets (v : Level) : (drive (.csx v) s).resets = s.resets := rfl
@[simp] theorem driveCsx_client (v : Level) : (drive (.csx v) s).client = s.client := rfl
@[simp] theorem driveCsx_draws (v : Level) : (drive (.csx v) s).draws = s.draws := rfl

@[simp] theorem driveDcx_cfg (v : Level) : (drive (.dcx v) s).cfg = s.cfg := rfl
@[simp] theorem driveDcx_phase (v : Level) : (drive (.dcx v) s).phase = s.phase := rfl
@[simp] theorem driveDcx_req (v : Level) : (drive (.dcx v) s).req = s.req := rfl
@[simp] theorem driveDcx_rot (v : Level) : (drive (.dcx v) s).rot = s.rot := rfl
@[simp] theorem driveDcx_csx (v : Level) : (drive (.dcx v) s).csx = s.csx := rfl
@[simp] theorem driveDcx_dcx (v : Level) : (drive (.dcx v) s).dcx = v := rfl
@[simp] theorem driveDcx_wrx (v : Level) : (drive (.dcx v) s).wrx = s.wrx := rfl
@[simp] theorem driveDcx_d (v : Level) : (drive (.dcx v) s).d = s.d := rfl
@[simp] theorem driveDcx_trace (v : Level) : (drive (.dcx v) s).trace = s.trace := rfl
@[simp] theorem driveDcx_pins (v : Level) : (drive (.dcx v) s).pins = s.pins ++ [.dcx v] := rfl
@[simp] theorem driveDcx_refused (v : Level) : (drive (.dcx v) s).refused = s.refused := rfl
@[simp] theorem driveDcx_fault (v : Level) : (drive (.dcx v) s).fault = s.fault := rfl
@[simp] theorem driveDcx_refusals (v : Level) : (drive (.dcx v) s).refusals = s.refusals := rfl
@[simp] theorem driveDcx_pinStep (v : Level) : (drive (.dcx v) s).pinStep = s.pinStep := rfl
@[simp] theorem driveDcx_reqValid (v : Level) : (drive (.dcx v) s).reqValid = s.reqValid := rfl
@[simp] theorem driveDcx_reqIn (v : Level) : (drive (.dcx v) s).reqIn = s.reqIn := rfl
@[simp] theorem driveDcx_resets (v : Level) : (drive (.dcx v) s).resets = s.resets := rfl
@[simp] theorem driveDcx_client (v : Level) : (drive (.dcx v) s).client = s.client := rfl
@[simp] theorem driveDcx_draws (v : Level) : (drive (.dcx v) s).draws = s.draws := rfl

@[simp] theorem driveWrx_cfg (v : Level) : (drive (.wrx v) s).cfg = s.cfg := rfl
@[simp] theorem driveWrx_phase (v : Level) : (drive (.wrx v) s).phase = s.phase := rfl
@[simp] theorem driveWrx_req (v : Level) : (drive (.wrx v) s).req = s.req := rfl
@[simp] theorem driveWrx_rot (v : Level) : (drive (.wrx v) s).rot = s.rot := rfl
@[simp] theorem driveWrx_csx (v : Level) : (drive (.wrx v) s).csx = s.csx := rfl
@[simp] theorem driveWrx_dcx (v : Level) : (drive (.wrx v) s).dcx = s.dcx := rfl
@[simp] theorem driveWrx_wrx (v : Level) : (drive (.wrx v) s).wrx = v := rfl
@[simp] theorem driveWrx_d (v : Level) : (drive (.wrx v) s).d = s.d := rfl
@[simp] theorem driveWrx_trace (v : Level) : (drive (.wrx v) s).trace = s.trace := rfl
@[simp] theorem driveWrx_pins (v : Level) : (drive (.wrx v) s).pins = s.pins ++ [.wrx v] := rfl
@[simp] theorem driveWrx_refused (v : Level) : (drive (.wrx v) s).refused = s.refused := rfl
@[simp] theorem driveWrx_fault (v : Level) : (drive (.wrx v) s).fault = s.fault := rfl
@[simp] theorem driveWrx_refusals (v : Level) : (drive (.wrx v) s).refusals = s.refusals := rfl
@[simp] theorem driveWrx_pinStep (v : Level) : (drive (.wrx v) s).pinStep = s.pinStep := rfl
@[simp] theorem driveWrx_reqValid (v : Level) : (drive (.wrx v) s).reqValid = s.reqValid := rfl
@[simp] theorem driveWrx_reqIn (v : Level) : (drive (.wrx v) s).reqIn = s.reqIn := rfl
@[simp] theorem driveWrx_resets (v : Level) : (drive (.wrx v) s).resets = s.resets := rfl
@[simp] theorem driveWrx_client (v : Level) : (drive (.wrx v) s).client = s.client := rfl
@[simp] theorem driveWrx_draws (v : Level) : (drive (.wrx v) s).draws = s.draws := rfl

@[simp] theorem driveD_cfg (w : Word18) : (drive (.d w) s).cfg = s.cfg := rfl
@[simp] theorem driveD_phase (w : Word18) : (drive (.d w) s).phase = s.phase := rfl
@[simp] theorem driveD_req (w : Word18) : (drive (.d w) s).req = s.req := rfl
@[simp] theorem driveD_rot (w : Word18) : (drive (.d w) s).rot = s.rot := rfl
@[simp] theorem driveD_csx (w : Word18) : (drive (.d w) s).csx = s.csx := rfl
@[simp] theorem driveD_dcx (w : Word18) : (drive (.d w) s).dcx = s.dcx := rfl
@[simp] theorem driveD_wrx (w : Word18) : (drive (.d w) s).wrx = s.wrx := rfl
@[simp] theorem driveD_d (w : Word18) : (drive (.d w) s).d = w := rfl
@[simp] theorem driveD_trace (w : Word18) : (drive (.d w) s).trace = s.trace := rfl
@[simp] theorem driveD_pins (w : Word18) : (drive (.d w) s).pins = s.pins ++ [.d w] := rfl
@[simp] theorem driveD_refused (w : Word18) : (drive (.d w) s).refused = s.refused := rfl
@[simp] theorem driveD_fault (w : Word18) : (drive (.d w) s).fault = s.fault := rfl
@[simp] theorem driveD_refusals (w : Word18) : (drive (.d w) s).refusals = s.refusals := rfl
@[simp] theorem driveD_pinStep (w : Word18) : (drive (.d w) s).pinStep = s.pinStep := rfl
@[simp] theorem driveD_reqValid (w : Word18) : (drive (.d w) s).reqValid = s.reqValid := rfl
@[simp] theorem driveD_reqIn (w : Word18) : (drive (.d w) s).reqIn = s.reqIn := rfl
@[simp] theorem driveD_resets (w : Word18) : (drive (.d w) s).resets = s.resets := rfl
@[simp] theorem driveD_client (w : Word18) : (drive (.d w) s).client = s.client := rfl
@[simp] theorem driveD_draws (w : Word18) : (drive (.d w) s).draws = s.draws := rfl

@[simp] theorem emit_cfg (t : Transaction) : (emit t s).cfg = s.cfg := rfl
@[simp] theorem emit_phase (t : Transaction) : (emit t s).phase = s.phase := rfl
@[simp] theorem emit_req (t : Transaction) : (emit t s).req = s.req := rfl
@[simp] theorem emit_rot (t : Transaction) : (emit t s).rot = s.rot := rfl
@[simp] theorem emit_csx (t : Transaction) : (emit t s).csx = s.csx := rfl
@[simp] theorem emit_dcx (t : Transaction) : (emit t s).dcx = s.dcx := rfl
@[simp] theorem emit_wrx (t : Transaction) : (emit t s).wrx = s.wrx := rfl
@[simp] theorem emit_d (t : Transaction) : (emit t s).d = s.d := rfl
@[simp] theorem emit_trace (t : Transaction) : (emit t s).trace = s.trace ++ [t] := rfl
@[simp] theorem emit_pins (t : Transaction) : (emit t s).pins = s.pins := rfl
@[simp] theorem emit_refused (t : Transaction) : (emit t s).refused = s.refused := rfl
@[simp] theorem emit_fault (t : Transaction) : (emit t s).fault = s.fault := rfl
@[simp] theorem emit_refusals (t : Transaction) : (emit t s).refusals = s.refusals := rfl
@[simp] theorem emit_pinStep (t : Transaction) : (emit t s).pinStep = s.pinStep := rfl
@[simp] theorem emit_reqValid (t : Transaction) : (emit t s).reqValid = s.reqValid := rfl
@[simp] theorem emit_reqIn (t : Transaction) : (emit t s).reqIn = s.reqIn := rfl
@[simp] theorem emit_resets (t : Transaction) : (emit t s).resets = s.resets := rfl
@[simp] theorem emit_client (t : Transaction) : (emit t s).client = s.client := rfl
@[simp] theorem emit_draws (t : Transaction) : (emit t s).draws = s.draws := rfl

@[simp] theorem beginOp_cfg (op : Op) : (beginOp op s).cfg = s.cfg := rfl
@[simp] theorem beginOp_phase (op : Op) : (beginOp op s).phase = .busy op 0 := rfl
@[simp] theorem beginOp_req (op : Op) : (beginOp op s).req = s.req := rfl
@[simp] theorem beginOp_rot (op : Op) : (beginOp op s).rot = s.rot := rfl
@[simp] theorem beginOp_csx (op : Op) : (beginOp op s).csx = s.csx := rfl
@[simp] theorem beginOp_dcx (op : Op) : (beginOp op s).dcx = s.dcx := rfl
@[simp] theorem beginOp_wrx (op : Op) : (beginOp op s).wrx = s.wrx := rfl
@[simp] theorem beginOp_d (op : Op) : (beginOp op s).d = s.d := rfl
@[simp] theorem beginOp_trace (op : Op) : (beginOp op s).trace = s.trace := rfl
@[simp] theorem beginOp_pins (op : Op) : (beginOp op s).pins = s.pins := rfl
@[simp] theorem beginOp_refused (op : Op) : (beginOp op s).refused = s.refused := rfl
@[simp] theorem beginOp_fault (op : Op) : (beginOp op s).fault = s.fault := rfl
@[simp] theorem beginOp_refusals (op : Op) : (beginOp op s).refusals = s.refusals := rfl
@[simp] theorem beginOp_pinStep (op : Op) : (beginOp op s).pinStep = 0 := rfl
@[simp] theorem beginOp_reqValid (op : Op) : (beginOp op s).reqValid = s.reqValid := rfl
@[simp] theorem beginOp_reqIn (op : Op) : (beginOp op s).reqIn = s.reqIn := rfl
@[simp] theorem beginOp_resets (op : Op) : (beginOp op s).resets = s.resets := rfl
@[simp] theorem beginOp_client (op : Op) : (beginOp op s).client = s.client := rfl
@[simp] theorem beginOp_draws (op : Op) : (beginOp op s).draws = s.draws := rfl

@[simp] theorem endOp_cfg : (endOp s).cfg = s.cfg := rfl
@[simp] theorem endOp_phase : (endOp s).phase = .idle := rfl
@[simp] theorem endOp_req : (endOp s).req = s.req := rfl
@[simp] theorem endOp_rot : (endOp s).rot = s.rot := rfl
@[simp] theorem endOp_csx : (endOp s).csx = s.csx := rfl
@[simp] theorem endOp_dcx : (endOp s).dcx = s.dcx := rfl
@[simp] theorem endOp_wrx : (endOp s).wrx = s.wrx := rfl
@[simp] theorem endOp_d : (endOp s).d = s.d := rfl
@[simp] theorem endOp_trace : (endOp s).trace = s.trace := rfl
@[simp] theorem endOp_pins : (endOp s).pins = s.pins := rfl
@[simp] theorem endOp_refused : (endOp s).refused = s.refused := rfl
@[simp] theorem endOp_fault : (endOp s).fault = s.fault := rfl
@[simp] theorem endOp_refusals : (endOp s).refusals = s.refusals := rfl
@[simp] theorem endOp_pinStep : (endOp s).pinStep = s.pinStep := rfl
@[simp] theorem endOp_reqValid : (endOp s).reqValid = s.reqValid := rfl
@[simp] theorem endOp_reqIn : (endOp s).reqIn = s.reqIn := rfl
@[simp] theorem endOp_resets : (endOp s).resets = s.resets := rfl
@[simp] theorem endOp_client : (endOp s).client = s.client := rfl
@[simp] theorem endOp_draws : (endOp s).draws = s.draws := rfl

@[simp] theorem setRot_cfg (r : Rotation) : (setRot r s).cfg = s.cfg := rfl
@[simp] theorem setRot_phase (r : Rotation) : (setRot r s).phase = s.phase := rfl
@[simp] theorem setRot_req (r : Rotation) : (setRot r s).req = s.req := rfl
@[simp] theorem setRot_rot (r : Rotation) : (setRot r s).rot = some r := rfl
@[simp] theorem setRot_csx (r : Rotation) : (setRot r s).csx = s.csx := rfl
@[simp] theorem setRot_dcx (r : Rotation) : (setRot r s).dcx = s.dcx := rfl
@[simp] theorem setRot_wrx (r : Rotation) : (setRot r s).wrx = s.wrx := rfl
@[simp] theorem setRot_d (r : Rotation) : (setRot r s).d = s.d := rfl
@[simp] theorem setRot_trace (r : Rotation) : (setRot r s).trace = s.trace := rfl
@[simp] theorem setRot_pins (r : Rotation) : (setRot r s).pins = s.pins := rfl
@[simp] theorem setRot_refused (r : Rotation) : (setRot r s).refused = s.refused := rfl
@[simp] theorem setRot_fault (r : Rotation) : (setRot r s).fault = s.fault := rfl
@[simp] theorem setRot_refusals (r : Rotation) : (setRot r s).refusals = s.refusals := rfl
@[simp] theorem setRot_pinStep (r : Rotation) : (setRot r s).pinStep = s.pinStep := rfl
@[simp] theorem setRot_reqValid (r : Rotation) : (setRot r s).reqValid = s.reqValid := rfl
@[simp] theorem setRot_reqIn (r : Rotation) : (setRot r s).reqIn = s.reqIn := rfl
@[simp] theorem setRot_resets (r : Rotation) : (setRot r s).resets = s.resets := rfl
@[simp] theorem setRot_client (r : Rotation) : (setRot r s).client = s.client := rfl
@[simp] theorem setRot_draws (r : Rotation) : (setRot r s).draws = s.draws := rfl

@[simp] theorem raiseRefused_cfg (r : RefusalReason) (w : Request) : (raiseRefused r w s).cfg = s.cfg := rfl
@[simp] theorem raiseRefused_phase (r : RefusalReason) (w : Request) : (raiseRefused r w s).phase = s.phase := rfl
@[simp] theorem raiseRefused_req (r : RefusalReason) (w : Request) : (raiseRefused r w s).req = s.req := rfl
@[simp] theorem raiseRefused_rot (r : RefusalReason) (w : Request) : (raiseRefused r w s).rot = s.rot := rfl
@[simp] theorem raiseRefused_csx (r : RefusalReason) (w : Request) : (raiseRefused r w s).csx = s.csx := rfl
@[simp] theorem raiseRefused_dcx (r : RefusalReason) (w : Request) : (raiseRefused r w s).dcx = s.dcx := rfl
@[simp] theorem raiseRefused_wrx (r : RefusalReason) (w : Request) : (raiseRefused r w s).wrx = s.wrx := rfl
@[simp] theorem raiseRefused_d (r : RefusalReason) (w : Request) : (raiseRefused r w s).d = s.d := rfl
@[simp] theorem raiseRefused_trace (r : RefusalReason) (w : Request) : (raiseRefused r w s).trace = s.trace := rfl
@[simp] theorem raiseRefused_pins (r : RefusalReason) (w : Request) : (raiseRefused r w s).pins = s.pins := rfl
@[simp] theorem raiseRefused_refused (r : RefusalReason) (w : Request) : (raiseRefused r w s).refused = true := rfl
@[simp] theorem raiseRefused_fault (r : RefusalReason) (w : Request) : (raiseRefused r w s).fault = s.fault := rfl
@[simp] theorem raiseRefused_refusals (r : RefusalReason) (w : Request) : (raiseRefused r w s).refusals = s.refusals ++ [⟨r, w⟩] := rfl
@[simp] theorem raiseRefused_pinStep (r : RefusalReason) (w : Request) : (raiseRefused r w s).pinStep = s.pinStep := rfl
@[simp] theorem raiseRefused_reqValid (r : RefusalReason) (w : Request) : (raiseRefused r w s).reqValid = s.reqValid := rfl
@[simp] theorem raiseRefused_reqIn (r : RefusalReason) (w : Request) : (raiseRefused r w s).reqIn = s.reqIn := rfl
@[simp] theorem raiseRefused_resets (r : RefusalReason) (w : Request) : (raiseRefused r w s).resets = s.resets := rfl
@[simp] theorem raiseRefused_client (r : RefusalReason) (w : Request) : (raiseRefused r w s).client = s.client := rfl
@[simp] theorem raiseRefused_draws (r : RefusalReason) (w : Request) : (raiseRefused r w s).draws = s.draws := rfl

@[simp] theorem raiseFault_cfg (r : FaultReason) : (raiseFault r s).cfg = s.cfg := rfl
@[simp] theorem raiseFault_phase (r : FaultReason) : (raiseFault r s).phase = s.phase := rfl
@[simp] theorem raiseFault_req (r : FaultReason) : (raiseFault r s).req = s.req := rfl
@[simp] theorem raiseFault_rot (r : FaultReason) : (raiseFault r s).rot = s.rot := rfl
@[simp] theorem raiseFault_csx (r : FaultReason) : (raiseFault r s).csx = s.csx := rfl
@[simp] theorem raiseFault_dcx (r : FaultReason) : (raiseFault r s).dcx = s.dcx := rfl
@[simp] theorem raiseFault_wrx (r : FaultReason) : (raiseFault r s).wrx = s.wrx := rfl
@[simp] theorem raiseFault_d (r : FaultReason) : (raiseFault r s).d = s.d := rfl
@[simp] theorem raiseFault_trace (r : FaultReason) : (raiseFault r s).trace = s.trace := rfl
@[simp] theorem raiseFault_pins (r : FaultReason) : (raiseFault r s).pins = s.pins := rfl
@[simp] theorem raiseFault_refused (r : FaultReason) : (raiseFault r s).refused = s.refused := rfl
@[simp] theorem raiseFault_fault (r : FaultReason) : (raiseFault r s).fault = s.fault ++ [r] := rfl
@[simp] theorem raiseFault_refusals (r : FaultReason) : (raiseFault r s).refusals = s.refusals := rfl
@[simp] theorem raiseFault_pinStep (r : FaultReason) : (raiseFault r s).pinStep = s.pinStep := rfl
@[simp] theorem raiseFault_reqValid (r : FaultReason) : (raiseFault r s).reqValid = s.reqValid := rfl
@[simp] theorem raiseFault_reqIn (r : FaultReason) : (raiseFault r s).reqIn = s.reqIn := rfl
@[simp] theorem raiseFault_resets (r : FaultReason) : (raiseFault r s).resets = s.resets := rfl
@[simp] theorem raiseFault_client (r : FaultReason) : (raiseFault r s).client = s.client := rfl
@[simp] theorem raiseFault_draws (r : FaultReason) : (raiseFault r s).draws = s.draws := rfl

@[simp] theorem latchRequest_cfg : (latchRequest s).cfg = s.cfg := rfl
@[simp] theorem latchRequest_phase : (latchRequest s).phase = s.phase := rfl
@[simp] theorem latchRequest_req : (latchRequest s).req = s.reqIn := rfl
@[simp] theorem latchRequest_rot : (latchRequest s).rot = s.rot := rfl
@[simp] theorem latchRequest_csx : (latchRequest s).csx = s.csx := rfl
@[simp] theorem latchRequest_dcx : (latchRequest s).dcx = s.dcx := rfl
@[simp] theorem latchRequest_wrx : (latchRequest s).wrx = s.wrx := rfl
@[simp] theorem latchRequest_d : (latchRequest s).d = s.d := rfl
@[simp] theorem latchRequest_trace : (latchRequest s).trace = s.trace := rfl
@[simp] theorem latchRequest_pins : (latchRequest s).pins = s.pins := rfl
@[simp] theorem latchRequest_refused : (latchRequest s).refused = s.refused := rfl
@[simp] theorem latchRequest_fault : (latchRequest s).fault = s.fault := rfl
@[simp] theorem latchRequest_refusals : (latchRequest s).refusals = s.refusals := rfl
@[simp] theorem latchRequest_pinStep : (latchRequest s).pinStep = s.pinStep := rfl
@[simp] theorem latchRequest_reqValid : (latchRequest s).reqValid = false := rfl
@[simp] theorem latchRequest_reqIn : (latchRequest s).reqIn = s.reqIn := rfl
@[simp] theorem latchRequest_resets : (latchRequest s).resets = s.resets := rfl
@[simp] theorem latchRequest_client : (latchRequest s).client = s.client := rfl
@[simp] theorem latchRequest_draws : (latchRequest s).draws = s.draws := rfl

@[simp] theorem presentRequest_cfg (w : Request) : (presentRequest w s).cfg = s.cfg := rfl
@[simp] theorem presentRequest_phase (w : Request) : (presentRequest w s).phase = s.phase := rfl
@[simp] theorem presentRequest_req (w : Request) : (presentRequest w s).req = s.req := rfl
@[simp] theorem presentRequest_rot (w : Request) : (presentRequest w s).rot = s.rot := rfl
@[simp] theorem presentRequest_csx (w : Request) : (presentRequest w s).csx = s.csx := rfl
@[simp] theorem presentRequest_dcx (w : Request) : (presentRequest w s).dcx = s.dcx := rfl
@[simp] theorem presentRequest_wrx (w : Request) : (presentRequest w s).wrx = s.wrx := rfl
@[simp] theorem presentRequest_d (w : Request) : (presentRequest w s).d = s.d := rfl
@[simp] theorem presentRequest_trace (w : Request) : (presentRequest w s).trace = s.trace := rfl
@[simp] theorem presentRequest_pins (w : Request) : (presentRequest w s).pins = s.pins := rfl
@[simp] theorem presentRequest_refused (w : Request) : (presentRequest w s).refused = s.refused := rfl
@[simp] theorem presentRequest_fault (w : Request) : (presentRequest w s).fault = s.fault := rfl
@[simp] theorem presentRequest_refusals (w : Request) : (presentRequest w s).refusals = s.refusals := rfl
@[simp] theorem presentRequest_pinStep (w : Request) : (presentRequest w s).pinStep = s.pinStep := rfl
@[simp] theorem presentRequest_reqValid (w : Request) : (presentRequest w s).reqValid = true := rfl
@[simp] theorem presentRequest_reqIn (w : Request) : (presentRequest w s).reqIn = w := rfl
@[simp] theorem presentRequest_resets (w : Request) : (presentRequest w s).resets = s.resets := rfl
@[simp] theorem presentRequest_client (w : Request) : (presentRequest w s).client = s.client := rfl
@[simp] theorem presentRequest_draws (w : Request) : (presentRequest w s).draws = s.draws := rfl

@[simp] theorem setProgram_cfg (p : List ClientAction) : (setProgram p s).cfg = s.cfg := rfl
@[simp] theorem setProgram_phase (p : List ClientAction) : (setProgram p s).phase = s.phase := rfl
@[simp] theorem setProgram_req (p : List ClientAction) : (setProgram p s).req = s.req := rfl
@[simp] theorem setProgram_rot (p : List ClientAction) : (setProgram p s).rot = s.rot := rfl
@[simp] theorem setProgram_csx (p : List ClientAction) : (setProgram p s).csx = s.csx := rfl
@[simp] theorem setProgram_dcx (p : List ClientAction) : (setProgram p s).dcx = s.dcx := rfl
@[simp] theorem setProgram_wrx (p : List ClientAction) : (setProgram p s).wrx = s.wrx := rfl
@[simp] theorem setProgram_d (p : List ClientAction) : (setProgram p s).d = s.d := rfl
@[simp] theorem setProgram_trace (p : List ClientAction) : (setProgram p s).trace = s.trace := rfl
@[simp] theorem setProgram_pins (p : List ClientAction) : (setProgram p s).pins = s.pins := rfl
@[simp] theorem setProgram_refused (p : List ClientAction) : (setProgram p s).refused = s.refused := rfl
@[simp] theorem setProgram_fault (p : List ClientAction) : (setProgram p s).fault = s.fault := rfl
@[simp] theorem setProgram_refusals (p : List ClientAction) : (setProgram p s).refusals = s.refusals := rfl
@[simp] theorem setProgram_pinStep (p : List ClientAction) : (setProgram p s).pinStep = s.pinStep := rfl
@[simp] theorem setProgram_reqValid (p : List ClientAction) : (setProgram p s).reqValid = s.reqValid := rfl
@[simp] theorem setProgram_reqIn (p : List ClientAction) : (setProgram p s).reqIn = s.reqIn := rfl
@[simp] theorem setProgram_resets (p : List ClientAction) : (setProgram p s).resets = s.resets := rfl
@[simp] theorem setProgram_client (p : List ClientAction) : (setProgram p s).client = { s.client with program := p } := rfl
@[simp] theorem setProgram_draws (p : List ClientAction) : (setProgram p s).draws = s.draws := rfl

@[simp] theorem noteEvent_cfg (e : ClientEvent) : (noteEvent e s).cfg = s.cfg := rfl
@[simp] theorem noteEvent_phase (e : ClientEvent) : (noteEvent e s).phase = s.phase := rfl
@[simp] theorem noteEvent_req (e : ClientEvent) : (noteEvent e s).req = s.req := rfl
@[simp] theorem noteEvent_rot (e : ClientEvent) : (noteEvent e s).rot = s.rot := rfl
@[simp] theorem noteEvent_csx (e : ClientEvent) : (noteEvent e s).csx = s.csx := rfl
@[simp] theorem noteEvent_dcx (e : ClientEvent) : (noteEvent e s).dcx = s.dcx := rfl
@[simp] theorem noteEvent_wrx (e : ClientEvent) : (noteEvent e s).wrx = s.wrx := rfl
@[simp] theorem noteEvent_d (e : ClientEvent) : (noteEvent e s).d = s.d := rfl
@[simp] theorem noteEvent_trace (e : ClientEvent) : (noteEvent e s).trace = s.trace := rfl
@[simp] theorem noteEvent_pins (e : ClientEvent) : (noteEvent e s).pins = s.pins := rfl
@[simp] theorem noteEvent_refused (e : ClientEvent) : (noteEvent e s).refused = s.refused := rfl
@[simp] theorem noteEvent_fault (e : ClientEvent) : (noteEvent e s).fault = s.fault := rfl
@[simp] theorem noteEvent_refusals (e : ClientEvent) : (noteEvent e s).refusals = s.refusals := rfl
@[simp] theorem noteEvent_pinStep (e : ClientEvent) : (noteEvent e s).pinStep = s.pinStep := rfl
@[simp] theorem noteEvent_reqValid (e : ClientEvent) : (noteEvent e s).reqValid = s.reqValid := rfl
@[simp] theorem noteEvent_reqIn (e : ClientEvent) : (noteEvent e s).reqIn = s.reqIn := rfl
@[simp] theorem noteEvent_resets (e : ClientEvent) : (noteEvent e s).resets = s.resets := rfl
@[simp] theorem noteEvent_client (e : ClientEvent) : (noteEvent e s).client = { s.client with events := s.client.events ++ [⟨s.trace.length, e⟩] } := rfl
@[simp] theorem noteEvent_draws (e : ClientEvent) : (noteEvent e s).draws = s.draws := rfl

@[simp] theorem countFrame_cfg : (countFrame s).cfg = s.cfg := by unfold countFrame; split <;> rfl
@[simp] theorem countFrame_req : (countFrame s).req = s.req := by unfold countFrame; split <;> rfl
@[simp] theorem countFrame_rot : (countFrame s).rot = s.rot := by unfold countFrame; split <;> rfl
@[simp] theorem countFrame_csx : (countFrame s).csx = s.csx := by unfold countFrame; split <;> rfl
@[simp] theorem countFrame_dcx : (countFrame s).dcx = s.dcx := by unfold countFrame; split <;> rfl
@[simp] theorem countFrame_wrx : (countFrame s).wrx = s.wrx := by unfold countFrame; split <;> rfl
@[simp] theorem countFrame_d : (countFrame s).d = s.d := by unfold countFrame; split <;> rfl
@[simp] theorem countFrame_trace : (countFrame s).trace = s.trace := by unfold countFrame; split <;> rfl
@[simp] theorem countFrame_pins : (countFrame s).pins = s.pins := by unfold countFrame; split <;> rfl
@[simp] theorem countFrame_refused : (countFrame s).refused = s.refused := by unfold countFrame; split <;> rfl
@[simp] theorem countFrame_fault : (countFrame s).fault = s.fault := by unfold countFrame; split <;> rfl
@[simp] theorem countFrame_refusals : (countFrame s).refusals = s.refusals := by unfold countFrame; split <;> rfl
@[simp] theorem countFrame_pinStep : (countFrame s).pinStep = s.pinStep := by unfold countFrame; split <;> rfl
@[simp] theorem countFrame_reqValid : (countFrame s).reqValid = s.reqValid := by unfold countFrame; split <;> rfl
@[simp] theorem countFrame_reqIn : (countFrame s).reqIn = s.reqIn := by unfold countFrame; split <;> rfl
@[simp] theorem countFrame_resets : (countFrame s).resets = s.resets := by unfold countFrame; split <;> rfl
@[simp] theorem countFrame_client : (countFrame s).client = s.client := by unfold countFrame; split <;> rfl
@[simp] theorem countFrame_draws : (countFrame s).draws = s.draws := by unfold countFrame; split <;> rfl

/-- Counting a frame adds one to a running operation's count, and changes no idle phase. -/
@[simp] theorem countFrame_phase : (countFrame s).phase = s.phase.addFrames 1 := by
  unfold countFrame Phase.addFrames; split <;> simp_all

@[simp] theorem addFrames_idle (k : Nat) : Phase.addFrames k .idle = .idle := rfl
@[simp] theorem addFrames_busy (k : Nat) (op : Op) (n : Nat) : Phase.addFrames k (.busy op n) = .busy op (n + k) := rfl

end FieldLaws

end Sys2Proof.Machine
end

