-- ==== Sys2Proof/Laws/Ops.lean ====
section
/-! SUPPORT. Laws/Ops.lean: one lemma per shared operation that says everything it does: BusWrite, Frame, a run of frames, the
seven pin writes of a frame, block reset, the acceptance of a request, the step. -/

namespace Sys2Proof.Machine

/-- Two states with equal fields are equal. -/
@[ext] theorem State.ext_fields {s t : State} (h1 : s.cfg = t.cfg) (h2 : s.phase = t.phase) (h3 : s.req = t.req)
    (h4 : s.rot = t.rot) (h5 : s.csx = t.csx) (h6 : s.dcx = t.dcx) (h7 : s.wrx = t.wrx) (h8 : s.d = t.d)
    (h9 : s.trace = t.trace) (h10 : s.pins = t.pins) (h11 : s.refused = t.refused) (h12 : s.fault = t.fault)
    (h13 : s.refusals = t.refusals) (h14 : s.pinStep = t.pinStep) (h15 : s.reqValid = t.reqValid)
    (h16 : s.reqIn = t.reqIn) (h17 : s.resets = t.resets) (h18 : s.client = t.client) (h19 : s.draws = t.draws) : s = t := by
  cases s; cases t; simp_all

/-- BusWrite ends with the word on D and the strobe high, after its four events (R80). -/
theorem busWrite_eq (w : Word18) (s : State) :
    busWrite w s =
      { s with d := w, wrx := true, pins := s.pins ++ [.d 0, .d w, .wrx false, .wrx true] } := by
  simp [busWrite, drive]

/-- One framed write, whole (R90). -/
theorem frame_eq (t : Transaction) (s : State) :
    frame t s =
      { s with
        csx := !s.cfg.csActive, dcx := dcxLevel s.cfg t.kind, wrx := true, d := t.word, trace := s.trace ++ [t],
        pins := s.pins ++ frameEvents s.cfg t, phase := s.phase.addFrames 1 } := by
  cases h : s.phase <;>
    simp [frame, busWrite_eq, drive, emit, countFrame, frameEvents, Phase.addFrames, h]

/-- A run of frames ends as its last frame does, with every frame's events and transaction appended in order (R53). -/
theorem runFrames_concat (ts : List Transaction) (t : Transaction) (s : State) :
    runFrames (ts ++ [t]) s =
      { s with
        csx := !s.cfg.csActive, dcx := dcxLevel s.cfg t.kind, wrx := true, d := t.word, trace := s.trace ++ (ts ++ [t]),
        pins := s.pins ++ (ts ++ [t]).flatMap (frameEvents s.cfg), phase := s.phase.addFrames (ts.length + 1) } := by
  induction ts generalizing s with
  | nil => simp [runFrames, frame_eq]
  | cons u us ih =>
    have h : runFrames (u :: us ++ [t]) s = runFrames (us ++ [t]) (frame u s) := by simp [runFrames]
    rw [h, ih, frame_eq]
    cases hp : s.phase <;> simp [Phase.addFrames, Nat.add_assoc, Nat.add_comm]

/-- The transactions of an operation depend on the latched request and the rotation alone. -/
theorem opTransactions_congr (op : Op) (s s' : State) (hr : s'.req = s.req) (hrot : s'.rot = s.rot) :
    opTransactions s' op = opTransactions s op := by
  cases op <;> simp [opTransactions, hr, hrot]

/-- A busy block with a frame to make makes its next pin write. -/
theorem tick_of_frame (s : State) (op : Op) (n : Nat) (t : Transaction) (hp : s.phase = .busy op n)
    (ht : (opTransactions s op)[n]? = some t) : tick s = framePinWrite t s := by
  simp [tick, hp, ht]

/-- Seven pin writes of a busy block make one framed write (R90). -/
theorem seven_ticks (s : State) (op : Op) (n : Nat) (t : Transaction) (hp : s.phase = .busy op n) (h0 : s.pinStep = 0)
    (ht : (opTransactions s op)[n]? = some t) : tick^[7] s = frame t s := by
  have go : ∀ s' : State, s'.phase = .busy op n → s'.req = s.req → s'.rot = s.rot → tick s' = framePinWrite t s' :=
    fun s' h1 h2 h3 => tick_of_frame s' op n t h1 (by rw [opTransactions_congr op s s' h2 h3, ht])
  obtain ⟨cfg, phase, req, rot, csx, dcx, wrx, d, trace, pins, refused, fault, refusals, pinStep, v, r, rs, cl, dr⟩ := s
  subst hp h0
  rw [Function.iterate_succ_apply tick 6, go]
  simp only [framePinWrite, drive]
  rw [Function.iterate_succ_apply tick 5, go]
  simp only [framePinWrite, drive]
  rw [Function.iterate_succ_apply tick 4, go]
  simp only [framePinWrite, drive]
  rw [Function.iterate_succ_apply tick 3, go]
  simp only [framePinWrite, drive]
  rw [Function.iterate_succ_apply tick 2, go]
  simp only [framePinWrite, drive]
  rw [Function.iterate_succ_apply tick 1, go]
  simp only [framePinWrite, drive, emit]
  rw [Function.iterate_succ_apply tick 0, go]
  simp [framePinWrite, frame, busWrite, drive, emit, countFrame]
  all_goals rfl

/-- What block reset leaves (R160, R161). -/
theorem blockReset_eq (s : State) :
    blockReset s =
      { s with
        phase := .idle, pinStep := 0, rot := s.cfg.rotReset, csx := !s.cfg.csActive, wrx := true,
        pins := s.pins ++ [.csx (!s.cfg.csActive), .wrx true],
        fault := s.fault ++ (if ready s then [] else [.aborted]) } := by
  cases h : s.phase <;> simp [blockReset, markAbort, raiseFault, ready, drive, h]

/-- The step, by the reset input. -/
theorem step_of_no_reset (s : State) (h : s.resets = []) : step s = advance false s := by simp [step, h]

/-- Accepting a request with no reset due runs the decoded instruction (R66, R67). -/
theorem step_of_accepting (s : State) (h : s.Accepting) : step s = acceptWhole s := by
  obtain ⟨hp, hv, hr⟩ := h
  simp [step, hr, advance, hp, hv]

/-- How the platform's count to its next reset goes on in a step without a reset (R160). -/
def CountsDown (rs rs' : List Nat) : Prop := (rs = [] ∧ rs' = []) ∨ ∃ k rest, rs = (k + 1) :: rest ∧ rs' = k :: rest

/-- A step without a reset, by the state it moves in. -/
theorem step_of_no_due_reset (s : State) (h : s.resets.head? ≠ some 0) :
    ∃ rs, CountsDown s.resets rs ∧ step s = advance (!s.resets.isEmpty) { s with resets := rs } := by
  match hr : s.resets with
  | [] => exact ⟨[], .inl ⟨rfl, rfl⟩, by cases s; cases hr; rfl⟩
  | 0 :: rest => simp [hr] at h
  | (k + 1) :: rest => exact ⟨k :: rest, .inr ⟨k, rest, rfl, rfl⟩, by simp [step, hr]⟩

/-- Everything a step can be: a platform reset; or, with the count to the next reset gone on, a move of the busy block, an acceptance
(whole, or its start with a reset due), or a move of the client. -/
theorem step_cases (s : State) :
    (∃ rest, s.resets = 0 :: rest ∧ step s = .next (platformReset { s with resets := rest })) ∨
    ∃ rs, CountsDown s.resets rs ∧
      ((∃ op n, s.phase = .busy op n ∧ step s = .next (tick { s with resets := rs })) ∨
       (s.phase = .idle ∧ s.reqValid = true ∧
          step s = if s.resets.isEmpty then acceptWhole { s with resets := rs } else acceptStart { s with resets := rs }) ∨
       (s.phase = .idle ∧ s.reqValid = false ∧ step s = clientMove { s with resets := rs })) := by
  by_cases h : s.resets.head? = some 0
  · match hr : s.resets with
    | [] => simp [hr] at h
    | 0 :: rest => exact .inl ⟨rest, rfl, by simp [step, hr]⟩
    | (k + 1) :: rest => simp [hr] at h
  · obtain ⟨rs, hc, hs⟩ := step_of_no_due_reset s h
    refine .inr ⟨rs, hc, ?_⟩
    rw [hs]
    cases hp : s.phase with
    | busy op n => exact .inl ⟨op, n, rfl, by simp [advance]⟩
    | idle =>
      cases hv : s.reqValid with
      | true => exact .inr (.inl ⟨rfl, rfl, by cases s.resets <;> simp [advance]⟩)
      | false => exact .inr (.inr ⟨rfl, rfl, by simp [advance]⟩)

end Sys2Proof.Machine
end

