-- ==== Sys2Proof/Laws/Client.lean ====
section
/-! SUPPORT. Laws/Client.lean: what a move of the client can be, the platform's reset as the whole system sees it, and the
client-level trace under one more event or some more transactions. -/

namespace Sys2Proof.Machine

/-- Everything a call can come to: its sequence, its sequence as a transition, or a stop (R120 to R136). -/
theorem makeCall_cases (c : Call) (rest : List ClientAction) (s : State) :
    (∃ p, plan c s.client.lifecycle (rotOut s) = .draw p ∧
      makeCall c rest s = .next (setProgram (assemble p ++ rest) (afterSampling c s))) ∨
    (∃ p l, plan c s.client.lifecycle (rotOut s) = .transit p l ∧
      makeCall c rest s =
        .next (setProgram (assemble p ++ .arrive l :: rest) { s with client := { s.client with transition := some l } })) ∨
    (plan c s.client.lifecycle (rotOut s) = .undefined ∧ makeCall c rest s = .fault .undefinedTransition) ∨
    (plan c s.client.lifecycle (rotOut s) = .noSequence ∧ makeCall c rest s = .refused .noClientSequence) := by
  unfold makeCall
  cases h : plan c s.client.lifecycle (rotOut s) with
  | draw p => exact .inl ⟨p, rfl, rfl⟩
  | transit p l => exact .inr (.inl ⟨p, l, rfl, rfl⟩)
  | undefined => exact .inr (.inr (.inl ⟨rfl, rfl⟩))
  | noSequence => exact .inr (.inr (.inr ⟨rfl, rfl⟩))

/-- The draw counter after a call: fillBackground alone samples rot_out (R25, R123). -/
theorem afterSampling_eq (c : Call) (s : State) :
    afterSampling c s = { s with draws := if samplesRotOut c then s.draws + 1 else s.draws } := by
  unfold afterSampling; split <;> rfl

/-- What a step with a due reset leaves of the whole system (R135, R160, R161). -/
theorem platformReset_eq (s : State) :
    platformReset s =
      { blockReset s with client := { s.client with
          interrupted := s.client.interrupted || (!ready s && s.client.transition.isSome) } } := by
  simp only [platformReset, interrupts, blockReset_eq]

/-- One more client event, at the end of the trace so far, is the last entry of the client-level trace (R129). -/
theorem interleave_concat (e : ClientEvent) (n : Nat) :
    ∀ (ms : List ClientMark) (done : Nat) (trace : List Transaction), trace.length = n - done →
      interleave done (ms ++ [⟨n, e⟩]) trace = interleave done ms trace ++ [e]
  | [], done, trace, h => by simp [interleave, ← h]
  | m :: ms, done, trace, h => by
    simp only [List.cons_append, interleave, List.append_assoc]
    rw [interleave_concat e n ms _ _ (by simp only [List.length_drop]; omega)]

/-- More transactions at the end of the trace are the last entries of the client-level trace, if every mark lies inside the trace
before them (R129). -/
theorem interleave_append (new : List Transaction) :
    ∀ (ms : List ClientMark) (done : Nat) (trace : List Transaction), (∀ m ∈ ms, m.after - done ≤ trace.length) →
      interleave done ms (trace ++ new) = interleave done ms trace ++ new.map .bus
  | [], done, trace, _ => by simp [interleave]
  | m :: ms, done, trace, h => by
    have h0 : m.after - done ≤ trace.length := h m (by simp)
    simp only [interleave, List.take_append_of_le_length h0, List.drop_append_of_le_length h0, List.append_assoc, List.cons_append]
    rw [interleave_append new ms _ _ fun x hx => by
      have := h x (by simp [hx])
      simp only [List.length_drop]; omega]

end Sys2Proof.Machine
end

