-- ==== Sys2Proof/Laws/Decode.lean ====
section
/-! SUPPORT. Laws/Decode.lean: the fields of a request word as numbers, and what the decoder does with each op code. -/

namespace Sys2Proof

@[simp] theorem reqOp_toNat (w : Request) : (reqOp w).toNat = w.toNat % 2 ^ 3 := by simp [reqOp]

@[simp] theorem reqA0_toNat (w : Request) : (reqA0 w).toNat = w.toNat / 2 ^ 3 % 2 ^ 18 := by
  simp [reqA0, Nat.shiftRight_eq_div_pow]

@[simp] theorem reqA1_toNat (w : Request) : (reqA1 w).toNat = w.toNat / 2 ^ 21 % 2 ^ 18 := by
  simp [reqA1, Nat.shiftRight_eq_div_pow]

@[simp] theorem reqA2_toNat (w : Request) : (reqA2 w).toNat = w.toNat / 2 ^ 39 % 2 ^ 18 := by
  simp [reqA2, Nat.shiftRight_eq_div_pow]

@[simp] theorem reqA3_toNat (w : Request) : (reqA3 w).toNat = w.toNat / 2 ^ 57 % 2 ^ 18 := by
  simp [reqA3, Nat.shiftRight_eq_div_pow]

@[simp] theorem reqRest_toNat (w : Request) : (reqRest w).toNat = w.toNat / 2 ^ 3 := by
  simp [reqRest, Nat.shiftRight_eq_div_pow]
  omega

@[simp] theorem hiBits10_toNat (a : Word18) : (hiBits10 a).toNat = a.toNat / 2 ^ 8 := by
  have := a.isLt
  simp [hiBits10, Nat.shiftRight_eq_div_pow]
  omega

@[simp] theorem hiBits2_toNat (a : Word18) : (hiBits2 a).toNat = a.toNat / 2 ^ 16 := by
  have := a.isLt
  simp [hiBits2, Nat.shiftRight_eq_div_pow]
  omega

@[simp] theorem coordField_toNat (a : Word18) : (coordField a).toNat = a.toNat % 2 ^ 16 := by simp [coordField]

@[simp] theorem byteField_toNat (a : Word18) : (byteField a).toNat = a.toNat % 2 ^ 8 := by simp [byteField]

/-- A request word is its fields in their places (R60). -/
theorem packRequest_toNat (op : BitVec 3) (a0 a1 a2 a3 : Word18) :
    (packRequest op a0 a1 a2 a3).toNat =
      op.toNat + a0.toNat * 2 ^ 3 + a1.toNat * 2 ^ 21 + a2.toNat * 2 ^ 39 + a3.toNat * 2 ^ 57 := by
  have h0 := op.isLt; have h1 := a0.isLt; have h2 := a1.isLt; have h3 := a2.isLt
  unfold packRequest
  simp only [BitVec.toNat_append]
  rw [← Nat.shiftLeft_add_eq_or_of_lt h0, ← Nat.shiftLeft_add_eq_or_of_lt h1, ← Nat.shiftLeft_add_eq_or_of_lt h2,
    ← Nat.shiftLeft_add_eq_or_of_lt h3]
  simp only [Nat.shiftLeft_eq]
  omega

/-- A reserved op code's word is its op code below its other bits (R68). -/
theorem reservedWord_toNat (rest : BitVec 72) (op : BitVec 3) :
    (rest ++ op : Request).toNat = rest.toNat * 2 ^ 3 + op.toNat := by
  rw [BitVec.toNat_append, ← Nat.shiftLeft_add_eq_or_of_lt op.isLt, Nat.shiftLeft_eq]

/-- Every op code is one of the eight of R61. -/
theorem reqOp_cases (w : Request) :
    reqOp w = 0 ∨ reqOp w = 1 ∨ reqOp w = 2 ∨ reqOp w = 3 ∨ reqOp w = 4 ∨ reqOp w = 5 ∨ reqOp w = 6 ∨ reqOp w = 7 := by
  generalize reqOp w = x
  revert x
  decide

/-- Op code 1 (R67). -/
theorem decodeOperation_op1 (w : Request) (h : reqOp w = 1) :
    decodeOperation w =
      if hiBits10 (reqA0 w) ≠ 0 ∨ reqA1 w ≠ 0 ∨ reqA2 w ≠ 0 ∨ reqA3 w ≠ 0 then .error .reservedBits
      else .ok (.wrcmd (byteField (reqA0 w))) := by
  simp [decodeOperation, h]

/-- Op code 2 (R67). -/
theorem decodeOperation_op2 (w : Request) (h : reqOp w = 2) :
    decodeOperation w =
      if reqA1 w ≠ 0 ∨ reqA2 w ≠ 0 ∨ reqA3 w ≠ 0 then .error .reservedBits else .ok (.wrdat (reqA0 w)) := by
  simp [decodeOperation, h]

/-- Op code 3 (R67). -/
theorem decodeOperation_op3 (w : Request) (h : reqOp w = 3) :
    decodeOperation w =
      if hiBits2 (reqA0 w) ≠ 0 ∨ hiBits2 (reqA1 w) ≠ 0 ∨ hiBits2 (reqA2 w) ≠ 0 ∨ hiBits2 (reqA3 w) ≠ 0 then
        .error .reservedBits
      else .ok (.setwin (coordField (reqA0 w)) (coordField (reqA1 w)) (coordField (reqA2 w)) (coordField (reqA3 w))) := by
  simp [decodeOperation, h]

/-- Op code 4 (R67). -/
theorem decodeOperation_op4 (w : Request) (h : reqOp w = 4) :
    decodeOperation w =
      if reqA1 w ≠ 0 ∨ reqA2 w ≠ 0 ∨ reqA3 w ≠ 0 then .error .reservedBits else .ok (.setrot (reqA0 w)) := by
  simp [decodeOperation, h]

/-- The reserved op codes (R67, R68). -/
theorem decodeOperation_reserved (w : Request) :
    (reqOp w = 0 → decodeOperation w = .ok (.reservedOp0 (reqRest w))) ∧
    (reqOp w = 5 → decodeOperation w = .ok (.reservedOp5 (reqRest w))) ∧
    (reqOp w = 6 → decodeOperation w = .ok (.reservedOp6 (reqRest w))) ∧
    (reqOp w = 7 → decodeOperation w = .ok (.reservedOp7 (reqRest w))) := by
  refine ⟨?_, ?_, ?_, ?_⟩ <;> intro h <;> simp [decodeOperation, h]

/-- The decoder is the operation of R67, under its one spelling. -/
theorem decode_eq_ok (w : Request) (i : Instr) : decode w = .ok i ↔ ∃ j, decodeOperation w = .ok j ∧ i = j.spell := by
  unfold decode
  cases decodeOperation w <;> simp [eq_comm]

/-- The decoder rejects exactly what R67 rejects. -/
theorem decode_eq_error (w : Request) (e : DecodeError) : decode w = .error e ↔ decodeOperation w = .error e := by
  unfold decode
  cases decodeOperation w <;> simp

/-- The spelling of a WRCMD: the code's own name, or WRCMD itself (R70). -/
theorem spell_wrcmd (c : Byte) : (Instr.wrcmd c).spell = (commandOf c).getD (.wrcmd c) := rfl

/-- A named command's request is the WRCMD of its code (R70). -/
theorem encode_of_commandOf (c : Byte) (i : Instr) (h : commandOf c = some i) : encode i = some (wrcmdRequest c) := by
  unfold commandOf at h
  split_ifs at h with h1 h2 h3 h4 h5 h6 h7 h8 h9 h10
  all_goals (simp only [Option.some.injEq] at h; subst h)
  · rw [h1]; rfl
  · rw [h2]; rfl
  · rw [h3]; rfl
  · rw [h4]; rfl
  · rw [h5]; rfl
  · rw [h6]; rfl
  · rw [h7]; rfl
  · rw [h8]; rfl
  · rw [h9]; rfl
  · rw [h10]; rfl

end Sys2Proof
end

