-- ==== Sys2Proof/Laws/PerInstr.lean ====
section
/-! SUPPORT. Laws/PerInstr.lean: the family OpField: the low three bits of an instruction's request word are its op code of R61,
and the instruction the word decodes to has that op code. -/

namespace Sys2Proof.Laws.OpField

/-- The op code of R61 of an instruction; a named command is a WRCMD (R70), BusWrite has none. -/
def opNumber : Instr → Option Nat
  | .wrcmd _ => some 1
  | .wrdat _ => some 2
  | .setwin _ _ _ _ => some 3
  | .setrot _ => some 4
  | .reservedOp0 _ => some 0
  | .reservedOp5 _ => some 5
  | .reservedOp6 _ => some 6
  | .reservedOp7 _ => some 7
  | .busWrite _ => none
  | .slpin => some 1
  | .slpout => some 1
  | .dispoff => some 1
  | .dispon => some 1
  | .caset => some 1
  | .paset => some 1
  | .ramwr => some 1
  | .madctl => some 1
  | .pixfmt => some 1
  | .ifmode => some 1

/-- An instruction has a request word exactly when it has an op code, and the word's low three bits are that op code. -/
def Statement (i : Instr) : Prop := (encode i).map (fun w => w.toNat % 8) = opNumber i

theorem wrcmd (c : Byte) : Statement (.wrcmd c) := by
  simp [Statement, encode, opNumber, wrcmdRequest, packRequest_toNat]

theorem wrdat (w : Word18) : Statement (.wrdat w) := by
  simp [Statement, encode, opNumber, packRequest_toNat]

theorem setwin (x0 y0 x1 y1 : Coord) : Statement (.setwin x0 y0 x1 y1) := by
  simp [Statement, encode, opNumber, packRequest_toNat]
  omega

theorem setrot (rIn : Word18) : Statement (.setrot rIn) := by
  simp [Statement, encode, opNumber, packRequest_toNat]

theorem reservedOp0 (rest : BitVec 72) : Statement (.reservedOp0 rest) := by
  simp [Statement, encode, opNumber, reservedWord_toNat]

theorem reservedOp5 (rest : BitVec 72) : Statement (.reservedOp5 rest) := by
  simp [Statement, encode, opNumber, reservedWord_toNat]

theorem reservedOp6 (rest : BitVec 72) : Statement (.reservedOp6 rest) := by
  simp [Statement, encode, opNumber, reservedWord_toNat]

theorem reservedOp7 (rest : BitVec 72) : Statement (.reservedOp7 rest) := by
  simp [Statement, encode, opNumber, reservedWord_toNat]

theorem busWrite (w : Word18) : Statement (.busWrite w) := rfl

theorem slpin : Statement .slpin := rfl

theorem slpout : Statement .slpout := rfl

theorem dispoff : Statement .dispoff := rfl

theorem dispon : Statement .dispon := rfl

theorem caset : Statement .caset := rfl

theorem paset : Statement .paset := rfl

theorem ramwr : Statement .ramwr := rfl

theorem madctl : Statement .madctl := rfl

theorem pixfmt : Statement .pixfmt := rfl

theorem ifmode : Statement .ifmode := rfl

end Sys2Proof.Laws.OpField
end

