-- ==== Sys2Proof/Tests/Slice0.lean ====
section
/-! SUPPORT. Tests/Slice0.lean: tests on fixed values taken from the spec's own encodings and vectors (95_test_vectors.md), each of
one decode, one instruction or one step, and for every obligation with hypotheses a named witness that they can be met. -/

namespace Sys2Proof.Tests

open Sys2Proof Sys2Proof.Machine

/-! ### Helpers -/

/-- The state a step or an instruction goes on with. -/
def after (o : Host.Outcome State Fault Refusal) : Option State :=
  match o with
  | .next s => some s
  | .fault _ => none
  | .refused _ => none

/-- The fault a step stops with. -/
def stopFault (o : Host.Outcome State Fault Refusal) : Option Fault :=
  match o with
  | .next _ => none
  | .fault f => some f
  | .refused _ => none

/-- The refusal a step stops with. -/
def stopRefusal (o : Host.Outcome State Fault Refusal) : Option Refusal :=
  match o with
  | .next _ => none
  | .fault _ => none
  | .refused r => some r

/-- After reset, with a rotation set. -/
def rotated (r : Rotation) : State := { State.reset with rot := some r }

/-- After reset, with a request on the port and this rotation. -/
def offering (rot : Option Rotation) (w : Request) : State := { State.reset with rot := rot, reqValid := true, reqIn := w }

/-- After reset, with the latched request `w` and the operation `op` at its start. -/
def busyWith (rot : Option Rotation) (op : Op) (w : Request) : State := beginOp op { State.reset with rot := rot, req := w }

/-- After reset, with a client that has this to do. -/
def clientWith (l : Lifecycle) (p : List ClientAction) : State :=
  { State.reset with client := { Client.atRest with lifecycle := l, program := p } }

/-- What a decode gives, as an option. -/
def decoded (w : Request) : Option Instr :=
  match decode w with
  | .ok i => some i
  | .error _ => none

/-- Whether a decode is refused for a should-be-zero bit. -/
def hasReservedBit (w : Request) : Bool :=
  match decode w with
  | .ok _ => false
  | .error .reservedBits => true

/-- The transactions an instruction adds to an empty trace. -/
def traceOf (i : Instr) (s : State) : Option (List Transaction) := (after (exec i s)).map (·.trace)

/-- A data transaction of this word. -/
def dat (w : Word18) : Transaction := ⟨.dat, w⟩

/-- A command transaction of this word. -/
def cmd (w : Word18) : Transaction := ⟨.cmd, w⟩

/-! ### WellFormed: for each check an ill-formed term that it refuses -/

theorem test_wellFormed_refuses_wrcmd_of_a_named_code : (Instr.wrcmd 0x10).wellFormed = false := by decide

theorem test_wellFormed_refuses_wrcmd_of_the_last_named_code : (Instr.wrcmd 0xB0).wellFormed = false := by decide

theorem test_wellFormed_refuses_busWrite : (Instr.busWrite 0).wellFormed = false := by decide

theorem test_wellFormed_accepts_an_unlisted_code : (Instr.wrcmd 0xFF).wellFormed = true := by decide

/-! ### Decode: a word for every constructor, bit by bit from R60 to R65 or from a vector of 95_test_vectors.md -/

/-- B2.3: a0 = 0xFF, op = 1. -/
theorem test_decode_wrcmd : decoded 0b11111111001 = some (.wrcmd 0xFF) := by decide

/-- B2.2. -/
theorem test_decode_wrcmd_zero : decoded 0b001 = some (.wrcmd 0) := by decide

/-- B2.6: a0 all ones, op = 2. -/
theorem test_decode_wrdat : decoded 0b111111111111111111010 = some (.wrdat 0x3FFFF) := by decide

/-- P1, statement 2: a3 = 5, a2 = 10, a1 = 5, a0 = 10, op = 3. -/
theorem test_decode_setwin :
    decoded (0b000000000000000101#18 ++ 0b000000000000001010#18 ++ 0b000000000000000101#18 ++ 0b000000000000001010#18 ++ 0b011#3) =
      some (.setwin 10 5 10 5) := by decide

/-- P4, statement 2: four different coordinates. -/
theorem test_decode_setwin_operand_order : decoded 0x000080001800040000B = some (.setwin 1 2 3 4) := by decide

/-- B4.2: r_in = 1, op = 4. -/
theorem test_decode_setrot : decoded 0b1100 = some (.setrot 1) := by decide

/-- B4.8: all 18 bits of r_in. -/
theorem test_decode_setrot_full_width : decoded 0x00000000000001FFFFC = some (.setrot 0x3FFFF) := by decide

/-- B5.1. -/
theorem test_decode_reservedOp0 : decoded 0b101000 = some (.reservedOp0 5) := by decide

/-- B5.2. -/
theorem test_decode_reservedOp5 : decoded 0b101 = some (.reservedOp5 0) := by decide

/-- B5.3: op 6 with a0 = 1 is not RESERVED_BITS. -/
theorem test_decode_reservedOp6 : decoded 0b1110 = some (.reservedOp6 1) := by decide

/-- B5.4. -/
theorem test_decode_reservedOp7 : decoded 0b111 = some (.reservedOp7 0) := by decide

/-- The ten command statements of R70 as request words: the code at bit 3, op = 1. -/
theorem test_decode_commands :
    decoded 0b00010000001 = some .slpin ∧ decoded 0b00010001001 = some .slpout ∧
    decoded 0b00101000001 = some .dispoff ∧ decoded 0b00101001001 = some .dispon ∧
    decoded 0b00101010001 = some .caset ∧ decoded 0b00101011001 = some .paset ∧
    decoded 0b00101100001 = some .ramwr ∧ decoded 0b00110110001 = some .madctl ∧
    decoded 0b00111010001 = some .pixfmt ∧ decoded 0b10110000001 = some .ifmode := by decide

/-- B2.4, B2.7, B3.10, B4.9. -/
theorem test_decode_refuses_reserved_bits :
    hasReservedBit 0x0000000000000000801 = true ∧ hasReservedBit 0x000000000000020002A = true ∧
    hasReservedBit 0x0000000000000080003 = true ∧ hasReservedBit 0x0000200000000000004 = true := by decide

/-- The highest should-be-zero bit of SETWIN and of WRCMD, one at a time (R65). -/
theorem test_decode_refuses_the_top_reserved_bit :
    hasReservedBit (BitVec.ofNat 75 (2 ^ 74 + 3)) = true ∧ hasReservedBit (BitVec.ofNat 75 (2 ^ 74 + 1)) = true := by decide

/-- The table's BUS_CMD words: 18 bits at command level (R71). -/
theorem test_table_words_of_bus_commands :
    decodeTableWord 24 0b00010000 = some .slpin ∧ decodeTableWord 24 0b00010001 = some .slpout ∧
    decodeTableWord 24 0b00101000 = some .dispoff ∧ decodeTableWord 24 0b00101001 = some .dispon ∧
    decodeTableWord 24 0b00101010 = some .caset ∧ decodeTableWord 24 0b00101011 = some .paset ∧
    decodeTableWord 24 0b00101100 = some .ramwr ∧ decodeTableWord 24 0b00110110 = some .madctl ∧
    decodeTableWord 24 0b00111010 = some .pixfmt ∧ decodeTableWord 24 0b10110000 = some .ifmode := by decide

/-- The table's REQ words: the three bits of op. -/
theorem test_table_words_of_requests :
    decodeTableWord 8 1 = some (.wrcmd 0) ∧ decodeTableWord 8 2 = some (.wrdat 0) ∧ decodeTableWord 8 3 = some (.setwin 0 0 0 0) ∧
    decodeTableWord 8 4 = some (.setrot 0) ∧ decodeTableWord 8 0 = some (.reservedOp0 0) ∧ decodeTableWord 8 5 = some (.reservedOp5 0) ∧
    decodeTableWord 8 6 = some (.reservedOp6 0) ∧ decodeTableWord 8 7 = some (.reservedOp7 0) := by decide

/-- A command is an exact match of all 18 bits at command level (R71). -/
theorem test_bus_command_needs_all_18_bits :
    decodeBusCommand (cmd 0x2C) = some .ramwr ∧ decodeBusCommand (dat 0x2C) = none ∧ decodeBusCommand (cmd 0x2002C) = none ∧
    decodeBusCommand (cmd 0x2D) = none := by decide

/-! ### One instruction each (95_test_vectors.md, B1 to B5) -/

/-- B1.1: the events, and the word left on D. -/
theorem test_busWrite_events :
    (after (exec (.busWrite 0x2A) { State.reset with d := 0x3FFFF })).map (fun t => (t.pins.drop 2, t.d, t.trace)) =
      some ([.d 0, .d 0x2A, .wrx false, .wrx true], 0x2A, []) := by decide

/-- B1.4: no bit of the old word survives. -/
theorem test_busWrite_clears_old_word :
    (after (exec (.busWrite 0x2AAAA) { State.reset with d := 0x15555 })).map (·.d) = some 0x2AAAA := by decide

/-- B2.1, with the default levels. -/
theorem test_wrcmd_pins :
    (after (exec (.wrcmd 0x2A) State.reset)).map (·.pins.drop 2) =
      some [.csx false, .dcx false, .d 0, .d 0x2A, .wrx false, .wrx true, .csx true] := by decide

/-- B2.3: an unlisted code is sent unchecked. -/
theorem test_wrcmd_unlisted_code : traceOf (.wrcmd 0xFF) State.reset = some [cmd 0xFF] := by decide

/-- B2.5, with the default levels. -/
theorem test_wrdat_pins :
    (after (exec (.wrdat 0) State.reset)).map (·.pins.drop 2) =
      some [.csx false, .dcx true, .d 0, .d 0, .wrx false, .wrx true, .csx true] := by decide

/-- B2.6. -/
theorem test_wrdat_all_lines : traceOf (.wrdat 0x3FFFF) State.reset = some [dat 0x3FFFF] := by decide

/-- B3.1. -/
theorem test_setwin_portrait :
    traceOf (.setwin 0x0102 0x0304 0x0506 0x0708) (rotated 0) =
      some [cmd 0x2A, dat 1, dat 2, dat 5, dat 6, cmd 0x2B, dat 3, dat 4, dat 7, dat 8, cmd 0x2C] := by decide

/-- B3.4: Landscape-Inverted maps as Landscape does. -/
theorem test_setwin_landscape_inverted :
    traceOf (.setwin 0x0102 0x0304 0x0506 0x0708) (rotated 3) =
      some [cmd 0x2A, dat 3, dat 4, dat 7, dat 8, cmd 0x2B, dat 1, dat 2, dat 5, dat 6, cmd 0x2C] := by decide

/-- B4.4. -/
theorem test_setrot_largest_kept :
    (after (exec (.setrot 3) State.reset)).map (fun t => (t.trace, t.rot)) = some ([cmd 0x36, dat 0xE8], some 3) := by decide

/-- B4.7: compared at full width, not truncated to 1. -/
theorem test_setrot_full_width_clamp :
    (after (exec (.setrot 0x101) (rotated 2))).map (fun t => (t.trace, t.rot)) = some ([cmd 0x36, dat 0x48], some 0) := by decide

/-- B5.1: the refusal is marked, and no pin has moved. -/
theorem test_reservedOp0 :
    (after (exec (.reservedOp0 5) State.reset)).map (fun t => (t.refused, t.refusals, t.pins, t.trace)) =
      some (true, [⟨.reservedOp, 0x28⟩], [.csx true, .wrx true], []) := by decide

/-- B5.2. -/
theorem test_reservedOp5 :
    (after (exec (.reservedOp5 0) State.reset)).map (fun t => (t.refused, t.refusals)) = some (true, [⟨.reservedOp, 5⟩]) := by decide

/-- B5.3. -/
theorem test_reservedOp6 :
    (after (exec (.reservedOp6 1) State.reset)).map (fun t => (t.refused, t.refusals)) = some (true, [⟨.reservedOp, 0xE⟩]) := by decide

/-- B5.4. -/
theorem test_reservedOp7 :
    (after (exec (.reservedOp7 0) State.reset)).map (fun t => (t.refused, t.refusals)) = some (true, [⟨.reservedOp, 7⟩]) := by decide

/-- R62: the ten codes on the bus. -/
theorem test_commands_on_the_bus :
    traceOf .slpin State.reset = some [cmd 0x10] ∧ traceOf .slpout State.reset = some [cmd 0x11] ∧
    traceOf .dispoff State.reset = some [cmd 0x28] ∧ traceOf .dispon State.reset = some [cmd 0x29] ∧
    traceOf .caset State.reset = some [cmd 0x2A] ∧ traceOf .paset State.reset = some [cmd 0x2B] ∧
    traceOf .ramwr State.reset = some [cmd 0x2C] ∧ traceOf .madctl State.reset = some [cmd 0x36] ∧
    traceOf .pixfmt State.reset = some [cmd 0x3A] ∧ traceOf .ifmode State.reset = some [cmd 0xB0] := by decide

/-! ### One step each -/

/-- B7.1: power-on. -/
theorem test_power_on :
    State.reset.pins = [.csx true, .wrx true] ∧ State.reset.trace = [] ∧ State.reset.rot = none ∧ State.reset.phase = .idle := by decide

/-- B3.9 and P5, statement 1: the fault mark, and nothing emitted. -/
theorem test_step_setwin_before_setrot :
    (after (step (offering none 3))).map (fun t => (t.fault, t.trace, t.phase, t.refused)) = some ([.rotUnset], [], .idle, false) := by decide

/-- B3.10: a refused SETWIN raises no fault. -/
theorem test_step_refused_setwin :
    (after (step (offering none 0x80003))).map (fun t => (t.fault, t.refusals, t.pins.length)) =
      some ([], [⟨.reservedBits, 0x80003⟩], 2) := by decide

/-- P1, statement 2 (W1): the Landscape pixel's window. -/
theorem test_step_landscape_window :
    (after (step (offering (some 1) 0x0000A00050000A00053))).map (·.trace) =
      some [cmd 0x2A, dat 0, dat 5, dat 0, dat 5, cmd 0x2B, dat 0, dat 10, dat 0, dat 10, cmd 0x2C] := by decide

/-- A bus command's table word, placed for the next step, is sent (R62). -/
theorem test_step_of_a_table_word : (after (step (State.reset.withFetchWord 24 0x29))).map (·.trace) = some [cmd 0x29] := by decide

/-- B7.2: a reset after SETROT; S.ROT is Unset again and the trace is kept. -/
theorem test_step_reset_when_idle :
    (after (step { rotated 1 with resets := [0], trace := [cmd 0x36, dat 0x28] })).map (fun t => (t.rot, t.trace, t.fault)) =
      some (none, [cmd 0x36, dat 0x28], []) := by decide

/-- B7.3: a reset while SETWIN has done 3 frames (21 pin writes). -/
theorem test_reset_after_three_frames :
    let t := blockReset (tick^[21] (busyWith (some 0) .setwin 0x000080001800040000B))
    t.trace = [cmd 0x2A, dat 0, dat 1] ∧ t.fault = [.aborted] ∧ t.pins.drop 23 = [.csx true, .wrx true] := by decide

/-- A call's sequence takes its place in the client's program (R121, B6.1). -/
theorem test_step_drawPixel_call :
    (after (step (clientWith .awakeDisplaying [.call (.drawPixel 0 0 0xFFFFFFFF)]))).map (·.client.program) =
      some [.request 3, .request 0x00000000000001FFFFA] := by decide

/-- W2, the window of fillBackground in Portrait (0,0)-(319,479), as SETWIN's request word. -/
theorem test_fillBackground_window :
    (match plan (.fillBackground colorBlack) .awakeDisplaying 0 with
      | .draw (.op i :: _) => some i
      | _ => none) = some (.setwin 0 0 319 479) := by decide

/-- B6.2: fillRect with w = 0 wraps its window's end and streams nothing. -/
theorem test_fillRect_of_no_width : fillRectSeq 2 3 0 5 9 = [.op (.setwin 2 3 1 7), .fill 0 9] := by decide

/-- The client-level trace interleaves with S.trace (R129, P2's first three entries). -/
theorem test_client_trace_interleaves :
    clientTrace { State.reset with
      trace := [cmd 0x11, cmd 0x3A],
      client := { Client.atRest with events := [⟨0, .resetPulse⟩, ⟨1, .wait 120⟩] } } =
      [.resetPulse, .bus (cmd 0x11), .wait 120, .bus (cmd 0x3A)] := by decide


/-! ### Witnesses: for each obligation with hypotheses, states and operands that meet them together, clause by clause -/

theorem witness_DecodeInvertsEncode :
    (Instr.wrcmd 0xFF).wellFormed = true ∧ (Instr.setwin 0xFFFF 0 0xFFFF 0).wellFormed = true ∧
    (Instr.setrot 0x3FFFF).wellFormed = true ∧ (Instr.reservedOp7 (-1)).wellFormed = true ∧ Instr.ifmode.wellFormed = true := by decide

theorem witness_EncodeInvertsDecode :
    decode 0x00000000000001FFFFA = .ok (.wrdat 0x3FFFF) ∧ decode 0x7F = .ok (.reservedOp7 0xF) :=
  ⟨by decide, by decide⟩

/-- The clauses of DecodeByOpAndReservedBits: the four reserved op codes, and the three operations without a reserved bit. -/
theorem witness_DecodeByOpAndReservedBits_op :
    (0x28#75).toNat % 8 = 0 ∧ (5#75).toNat % 8 = 5 ∧ (0xE#75).toNat % 8 = 6 ∧ (7#75).toNat % 8 = 7 := by decide

theorem witness_DecodeByOpAndReservedBits_clear :
    (0x1FFFFA % 8 = 2 ∧ ¬ Expect.reservedBit 0x1FFFFA) ∧
    (0x80001800040000B % 8 = 3 ∧ ¬ Expect.reservedBit 0x80001800040000B) ∧
    (0x1FFFFC % 8 = 4 ∧ ¬ Expect.reservedBit 0x1FFFFC) := ⟨by decide, by decide, by decide⟩

/-- Each of the reserved fields at its lowest or its highest bit, and the operand bit next to one. -/
theorem witness_DecodeByOpAndReservedBits_set :
    Expect.reservedBit (2 ^ 11 + 1) ∧ Expect.reservedBit (2 ^ 74 + 1) ∧ Expect.reservedBit (2 ^ 21 + 2) ∧
    Expect.reservedBit (2 ^ 21 + 4) ∧ Expect.reservedBit (2 ^ 19 + 3) ∧ Expect.reservedBit (2 ^ 38 + 3) ∧
    Expect.reservedBit (2 ^ 55 + 3) ∧ Expect.reservedBit (2 ^ 74 + 3) ∧ ¬ Expect.reservedBit (2 ^ 72 + 3) :=
  ⟨by decide, by decide, by decide, by decide, by decide, by decide, by decide, by decide, by decide⟩

/-- Both directions of BusCommandByExactMatch. -/
theorem witness_BusCommandByExactMatch :
    decodeBusCommand (cmd 0x10) = some .slpin ∧ decodeBusCommand (cmd 0xB0) = some .ifmode := by decide

theorem accepting_offering (rot : Option Rotation) (w : Request) : (offering rot w).Accepting := ⟨rfl, rfl, rfl⟩

theorem witness_StepRunsDecodedInstruction :
    (offering (some 1) 0xC).Accepting ∧ decode (offering (some 1) 0xC).reqIn = .ok (.setrot 1) :=
  ⟨accepting_offering _ _, by decide⟩

/-- A reset due in one step: a busy block; a request with frames, and one without. -/
theorem witness_StepBeforeADueReset :
    (∃ s : State, s.resets = [0 + 1] ∧ s.phase = .busy .setwin 3) ∧
    (∃ s : State, s.resets = [0 + 1] ∧ s.phase = .idle ∧ s.reqValid = true ∧ decode s.reqIn = .ok (.setwin 0 0 0 0) ∧
      startsOp (.setwin 0 0 0 0) s = some .setwin) ∧
    (∃ s : State, s.resets = [0 + 1] ∧ s.phase = .idle ∧ s.reqValid = true ∧ decode s.reqIn = .ok (.setwin 0 0 0 0) ∧
      startsOp (.setwin 0 0 0 0) s = none) :=
  ⟨⟨{ busyWith (some 0) .setwin 3 with phase := .busy .setwin 3, resets := [1] }, rfl, rfl⟩,
    ⟨{ offering (some 0) 3 with resets := [1] }, rfl, rfl, rfl, by decide, rfl⟩,
    ⟨{ offering none 3 with resets := [1] }, rfl, rfl, rfl, by decide, rfl⟩⟩

/-- Both formats of a table word, at the last width of each. -/
theorem witness_FetchedTableWordRuns :
    decodeTableWord 24 0xB0 = some .ifmode ∧ decodeTableWord 16 0x7F9 = some (.wrcmd 0xFF) ∧
    decodeTableWord 80 0x0000A00050000A00053 = some (.setwin 10 5 10 5) := by decide

/-- Codes 0 and 255, and a named one. -/
theorem witness_EveryCommandCodeIsSent :
    (offering none 1).Accepting ∧ (offering none 1).reqIn = BitVec.ofNat 75 (1 + 8 * (0#8).toNat) ∧
    (offering none 0x7F9).Accepting ∧ (offering none 0x7F9).reqIn = BitVec.ofNat 75 (1 + 8 * (0xFF#8).toNat) ∧
    (offering none 0x151).Accepting ∧ (offering none 0x151).reqIn = BitVec.ofNat 75 (1 + 8 * (0x2A#8).toNat) :=
  ⟨accepting_offering _ _, by decide, accepting_offering _ _, by decide, accepting_offering _ _, by decide⟩

/-- Each reserved op code, the last with every other bit set. -/
theorem witness_RefusedRequestIsDropped_op :
    (∀ w : Request, (offering none w).Accepting) ∧
    (offering none 0).reqIn.toNat % 8 = 0 ∧ (offering none 5).reqIn.toNat % 8 = 5 ∧ (offering none 6).reqIn.toNat % 8 = 6 ∧
    (offering none 0x7FFFFFFFFFFFFFFFFFF).reqIn.toNat % 8 = 7 :=
  ⟨accepting_offering none, by decide, by decide, by decide, by decide⟩

theorem witness_RefusedRequestIsDropped_bits :
    (offering none 0x801).Accepting ∧ Expect.reservedBit (offering none 0x801).reqIn.toNat :=
  ⟨accepting_offering _ _, by decide⟩

theorem witness_RefusedRequestIsDropped_mark :
    ∃ t, step { State.reset with refused := true } = .next t ∧ ({ State.reset with refused := true } : State).refused = true :=
  ⟨_, rfl, rfl⟩

/-- A SETWIN in its last frame with another request waiting; an accepted request; an idle step with none. -/
theorem witness_RequestHeldUntilIdle :
    (∃ s : State, s.phase = .busy .setwin 10 ∧ s.resets.head? ≠ some 0 ∧ s.reqValid = true) ∧
    (offering (some 0) 3).Accepting ∧ decode (offering (some 0) 3).reqIn = .ok (.setwin 0 0 0 0) ∧
    (∃ t, State.reset.phase = .idle ∧ State.reset.reqValid = false ∧ step State.reset = .next t) :=
  ⟨⟨{ offering (some 0) 3 with phase := .busy .setwin 10, resets := [1] }, rfl, by decide, rfl⟩, accepting_offering _ _, by decide, ⟨_, rfl, rfl, rfl⟩⟩

/-- A due reset while busy with a request waiting; op 6 with another bit set; a SETWIN with a reserved bit. -/
theorem witness_PriorityOfEvents :
    (∃ s : State, s.resets = [0] ∧ s.phase = .busy .setwin 3 ∧ s.reqValid = true) ∧
    ((offering none 0xE).Accepting ∧ (offering none 0xE).reqIn.toNat % 8 = 6) ∧
    ((offering none 0x80003).Accepting ∧ (offering none 0x80003).reqIn.toNat % 8 = 3 ∧
      Expect.reservedBit (offering none 0x80003).reqIn.toNat) :=
  ⟨⟨{ offering (some 0) 3 with phase := .busy .setwin 3, resets := [0] }, rfl, rfl, rfl⟩,
    ⟨accepting_offering _ _, by decide⟩, ⟨accepting_offering _ _, by decide, by decide⟩⟩

theorem witness_FramedWriteInOrder : (busyWith none .wrdat 2).phase = .busy .wrdat 0 := rfl

theorem witness_SetwinMapsAxesByRotation :
    ((rotated 0).rot = some 0 ∨ (rotated 0).rot = some 2) ∧ ((rotated 2).rot = some 0 ∨ (rotated 2).rot = some 2) ∧
    ((rotated 1).rot = some 1 ∨ (rotated 1).rot = some 3) ∧ ((rotated 3).rot = some 1 ∨ (rotated 3).rot = some 3) := by decide

theorem witness_SetwinBeforeSetrotFaults : State.reset.rot = none := rfl

theorem witness_SetrotClampsToPortrait : (4#18).toNat > 3 ∧ (0x3FFFF#18).toNat > 3 := by decide

/-- The far corner of the canvas in each rotation. -/
theorem witness_MappedWindowStaysOnTheCanvas :
    ∀ r : Rotation, 0 < canvasWidth r ∧ canvasWidth r - 1 < canvasWidth r ∧ (BitVec.ofNat 16 (canvasWidth r - 1)).toNat < canvasWidth r ∧
      (BitVec.ofNat 16 (canvasHeight r - 1)).toNat < canvasHeight r := by decide

theorem witness_StatusOutputs : (rotated 0).rot = some 0 ∧ (rotated 3).rot = some 3 := ⟨rfl, rfl⟩

/-- Every clause of OperationLengths has an instruction that answers a next state; SETWIN in both of its cases. -/
theorem witness_OperationLengths :
    (∃ t, exec (.setwin 0 0 0xFFFF 0xFFFF) (rotated 0) = .next t ∧ (rotated 0).rot.isSome = true) ∧
    (∃ t, exec (.setwin 0 0 0 0) State.reset = .next t ∧ State.reset.rot = none) ∧
    (∃ t, exec (.setrot 4) State.reset = .next t) ∧ (∃ t, exec (.reservedOp0 0) State.reset = .next t) ∧
    (∃ t, exec (.busWrite 0) State.reset = .next t) ∧ (∃ t, exec (.wrcmd 0) State.reset = .next t) ∧
    (∃ t, exec .ifmode State.reset = .next t) :=
  ⟨⟨_, rfl, rfl⟩, ⟨_, rfl, rfl⟩, ⟨_, rfl⟩, ⟨_, rfl⟩, ⟨_, rfl⟩, ⟨_, rfl⟩, ⟨_, rfl⟩⟩

/-- A lifecycle call that has no transition, and an interrupted transition. -/
theorem witness_OnlyTheClientStops_fault :
    step (clientWith .asleep [.call .sleep]) = .fault .undefinedTransition ∧
    step { State.reset with client := { Client.atRest with interrupted := true } } = .fault .transitionInterrupted :=
  ⟨rfl, rfl⟩

theorem witness_OnlyTheClientStops_refusal :
    step (clientWith .awakeDisplaying [.call .drawLine]) = .refused .noClientSequence ∧
    step (clientWith .awakeDisplaying [.call .drawCircle]) = .refused .noClientSequence ∧
    step (clientWith .awakeDisplaying [.call .fillCircle]) = .refused .noClientSequence :=
  ⟨rfl, rfl, rfl⟩

/-- The invariant after reset. -/
theorem inv_reset : State.reset.Inv := ⟨⟨⟨rfl, rfl⟩, rfl⟩, trivial, ⟨false, 0, rfl⟩⟩

theorem witness_PinRecordLatchesTheTrace : ∃ t, State.reset.Inv ∧ step State.reset = .next t := ⟨_, inv_reset, rfl⟩

theorem witness_IdlePinsHold : ∃ t, State.reset.SequencerOk ∧ step State.reset = .next t ∧ t.phase = .idle :=
  ⟨_, inv_reset.1, rfl, rfl⟩

theorem witness_RecordsOnlyGrow : ∃ t, step { State.reset with refused := true } = .next t := ⟨_, rfl⟩

/-- An instruction other than SETROT; and each way a step changes S.ROT: a due reset, a SETROT accepted, a SETROT at its end. -/
theorem witness_RotationKeptUntilSetrotOrReset :
    (∃ t, exec (.setwin 0 0 0 0) (rotated 1) = .next t ∧ ∀ r, Instr.setwin 0 0 0 0 ≠ .setrot r) ∧
    (∃ t, step { rotated 1 with resets := [0] } = .next t ∧ t.rot ≠ (rotated 1).rot) ∧
    (∃ t, step (offering (some 0) 0xC) = .next t ∧ t.rot ≠ some 0) ∧
    (∃ t, step { busyWith (some 0) .setrot 0xC with phase := .busy .setrot 2 } = .next t ∧ t.rot ≠ some 0) :=
  ⟨⟨_, rfl, nofun⟩, ⟨_, rfl, by decide⟩, ⟨_, rfl, by decide⟩, ⟨_, rfl, by decide⟩⟩

/-- The first frame of a WRDAT with the strobe low. -/
theorem witness_LinesStableWhileStrobeLow :
    (tick^[5] { busyWith none .wrdat 0x1FFFFA with pins := [] }).Inv ∧
    (tick^[5] { busyWith none .wrdat 0x1FFFFA with pins := [] }).phase = .busy .wrdat 0 ∧
    (tick^[5] { busyWith none .wrdat 0x1FFFFA with pins := [] }).wrx = false :=
  ⟨⟨⟨by decide, by decide, fun _ => by decide, rfl, rfl, nofun⟩, ⟨fun _ => rfl, fun h => absurd h (by decide), fun _ => rfl⟩,
    ⟨false, 0, rfl⟩⟩, rfl, rfl⟩

/-- Each of the four operations. -/
theorem witness_SequencerMatchesWholeOperation :
    (decode (offering none 1).reqIn = .ok (.wrcmd 0) ∧ startsOp (.wrcmd 0) (offering none 1) = some .wrcmd) ∧
    (decode (offering none 2).reqIn = .ok (.wrdat 0) ∧ startsOp (.wrdat 0) (offering none 2) = some .wrdat) ∧
    (decode (offering (some 3) 3).reqIn = .ok (.setwin 0 0 0 0) ∧
      startsOp (.setwin 0 0 0 0) (offering (some 3) 3) = some .setwin) ∧
    (decode (offering none 0x24).reqIn = .ok (.setrot 4) ∧ startsOp (.setrot 4) (offering none 0x24) = some .setrot) :=
  ⟨⟨by decide, rfl⟩, ⟨by decide, rfl⟩, ⟨by decide, rfl⟩, ⟨by decide, rfl⟩⟩

/-- A board with both levels the other way round. -/
theorem witness_BoardLevelsDoNotShowInTheTrace :
    ∃ t u, exec (.wrdat 5) State.reset = .next t ∧
      exec (.wrdat 5) { State.reset with cfg := { State.reset.cfg with csActive := true, dcxCmd := true } } = .next u :=
  ⟨_, _, rfl, rfl⟩

theorem witness_OldLineLevelsDoNotMatter :
    startsOp (.setwin 1 2 3 4) (rotated 0) = some .setwin ∧ startsOp .dispon State.reset = some .wrcmd := ⟨rfl, rfl⟩

theorem witness_BlockResetEffect :
    State.reset.phase = .idle ∧ (busyWith (some 0) .setwin 3).phase = .busy .setwin 0 := ⟨rfl, rfl⟩

/-- SETWIN with a rotation and its last pin write; an operation that needs none and its first moment. -/
theorem witness_ResetKeepsThePartSent :
    ((Op.setwin = .setwin → (rotated 0).rot.isSome = true) ∧ 77 ≤ 7 * frameCount .setwin) ∧
    ((Op.wrcmd = .setwin → State.reset.rot.isSome = true) ∧ 0 ≤ 7 * frameCount .wrcmd) := by decide

theorem witness_LifecycleSequences :
    (Lifecycle.awakeDisplaying = .awakeDisplaying ∨ Lifecycle.awakeDisplaying = .awakeBlanked) ∧
    (Lifecycle.awakeBlanked = .awakeDisplaying ∨ Lifecycle.awakeBlanked = .awakeBlanked) := by decide

/-- After reset, with a client that has this to do and a reset due in one step. -/
def clientBeforeReset (l : Lifecycle) (p : List ClientAction) : State := { clientWith l p with resets := [1] }

/-- With no reset due, and with one due in the step after. -/
theorem clientMoves_hypotheses (l : Lifecycle) (p : List ClientAction) :
    ((clientWith l p).phase = .idle ∧ (clientWith l p).reqValid = false ∧ (clientWith l p).resets.head? ≠ some 0 ∧
      (clientWith l p).client.interrupted = false ∧ (clientWith l p).client.program = p) ∧
    ((clientBeforeReset l p).phase = .idle ∧ (clientBeforeReset l p).reqValid = false ∧
      (clientBeforeReset l p).resets.head? ≠ some 0 ∧ (clientBeforeReset l p).client.interrupted = false ∧
      (clientBeforeReset l p).client.program = p) :=
  ⟨⟨rfl, rfl, nofun, rfl, rfl⟩, ⟨rfl, rfl, by simp [clientBeforeReset], rfl, rfl⟩⟩

/-- A reset pulse and a wait, with and without a reset to come. -/
theorem witness_ClientEventsLeaveTheBlockAlone :
    (clientWith .reset [.resetPulse]).client.program = [.resetPulse] ∧
    (clientBeforeReset .reset [.wait 120]).client.program = [.wait 120] ∧
    (clientBeforeReset .reset [.wait 120]).resets.head? ≠ some 0 :=
  ⟨rfl, rfl, (clientMoves_hypotheses _ _).2.2.2.1⟩

/-- Each of the moves: a request, a call that draws (one that samples rot_out, one that does not), a call that is a transition, the
end of one, nothing to do; clientMoves_hypotheses gives the rest of the hypotheses. -/
theorem witness_ClientMovesInProgramOrder :
    (clientBeforeReset .reset [.request 3]).client.program = [.request 3] ∧
    plan (.fillBackground 0) .awakeDisplaying 0 = .draw (fillBackgroundSeq 0 0) ∧
    plan (.drawPixel 0 0 0) .asleep 0 = .draw (drawPixelSeq 0 0 0) ∧
    plan .wakeUp .asleep 0 = .transit wakeUpSeq .awakeDisplaying ∧
    (clientWith .reset [.arrive .asleep]).client.program = [.arrive .asleep] ∧ (clientWith .reset []).client.program = [] :=
  ⟨rfl, rfl, rfl, rfl, rfl, rfl⟩

/-- fillBackground samples rot_out once (R113, R123); drawPixel does not. -/
theorem test_draws_of_a_call :
    (after (step (clientBeforeReset .awakeDisplaying [.call (.fillBackground 0)]))).map (fun t => (t.draws, t.resets)) = some (1, [0]) ∧
    (after (step (clientWith .awakeDisplaying [.call (.drawPixel 0 0 0)]))).map (fun t => (t.draws, t.resets)) = some (0, []) := by
  decide

/-- R135: a call of each kind in a state without its transition, and beside each a state that has it. -/
theorem witness_UndefinedClientMovesStop :
    Expect.noTransition (.init 0) .asleep ∧ ¬ Expect.noTransition (.init 0) .reset ∧
    Expect.noTransition .blank .awakeBlanked ∧ ¬ Expect.noTransition .blank .awakeDisplaying ∧
    Expect.noTransition .unblank .awakeDisplaying ∧ ¬ Expect.noTransition .unblank .awakeBlanked ∧
    Expect.noTransition .sleep .asleep ∧ ¬ Expect.noTransition .sleep .awakeBlanked ∧
    Expect.noTransition .wakeUp .awakeDisplaying ∧ ¬ Expect.noTransition .wakeUp .asleep ∧
    Expect.noSequence .fillCircle ∧ ¬ Expect.noTransition (.drawPixel 0 0 0) .asleep := by
  simp [Expect.noTransition, Expect.noSequence]

theorem witness_UndefinedClientMovesStop_interrupted :
    ∃ s : State, s.phase = .idle ∧ s.reqValid = false ∧ s.resets.head? ≠ some 0 ∧ s.client.interrupted = true :=
  ⟨{ State.reset with client := { Client.atRest with interrupted := true } }, rfl, rfl, nofun, rfl⟩

/-- A state whose marks lie at both ends of its trace, and the three kinds of step from it: a transaction, a client event, neither. -/
def marked : State :=
  { State.reset with
    trace := [cmd 0x11]
    client := { Client.atRest with events := [⟨0, .resetPulse⟩, ⟨1, .wait 120⟩], program := [.wait 20] } }

theorem witness_ClientTraceInterleaves :
    marked.MarksInTrace ∧ (∃ t, step marked = .next t) ∧
    ({ marked with reqValid := true, reqIn := 2 } : State).MarksInTrace ∧
    (∃ t, step { marked with reqValid := true, reqIn := 2 } = .next t) :=
  have h : marked.MarksInTrace := by simp [State.MarksInTrace, marked]
  ⟨h, ⟨_, rfl⟩, h, ⟨_, rfl⟩⟩

theorem witness_DueResetStep :
    (∃ s : State, s.resets = [0] ∧ s.phase = .idle) ∧
    (∃ s : State, s.resets = [0] ∧ s.phase = .busy .setwin 3 ∧ s.client.transition = some .asleep) :=
  ⟨⟨{ State.reset with resets := [0] }, rfl, rfl⟩,
    ⟨{ busyWith (some 0) .setwin 3 with
        phase := .busy .setwin 3, resets := [0], client := { Client.atRest with transition := some .asleep } }, rfl, rfl, rfl⟩⟩

/-- B7.3 by the step, while a transition runs: ABORTED is marked, and the client is interrupted (R135). -/
theorem test_step_reset_when_busy :
    (after (step { busyWith (some 0) .wrcmd 0x81 with resets := [0], client := { Client.atRest with transition := some .asleep } })).map
      (fun t => (t.fault, t.phase, t.rot, t.client.interrupted)) = some ([.aborted], .idle, none, true) := by decide

end Sys2Proof.Tests
end

