-- ==== Sys2Proof/Proofs/Framer.lean ====
section
/-! SUPPORT. Proofs/Framer.lean: the framed write of R90 as the spec words it, from `frame_eq`. -/

namespace Sys2Proof.Machine

/-- Settles O15: `frame_eq` gives the whole next state with one frame counted; the level it leaves on DCX is R90's for either
kind of transaction. -/
theorem framedWriteInOrder : Obligations.FramedWriteInOrder := by
  intro s t op n busy
  rw [frame_eq, frameEvents, busy, addFrames_busy]
  cases t.kind with
  | cmd => rfl
  | dat => rfl

end Sys2Proof.Machine
end

