-- ==== Sys2Proof/Proofs/AddressWindow.lean ====
section
/-! SUPPORT. Proofs/AddressWindow.lean: the axis map by ROT[0], and SETWIN's frames as independent of S.ROT once the window is
mapped (R100, R101). -/

namespace Sys2Proof.Machine

/-- A framed write neither reads nor writes S.ROT (R90). -/
theorem frame_setRot (t : Transaction) (r : Rotation) (s : State) : frame t (setRot r s) = setRot r (frame t s) := by
  simp only [frame_eq, setRot]

theorem runFrames_setRot (ts : List Transaction) (r : Rotation) (s : State) :
    runFrames ts (setRot r s) = setRot r (runFrames ts s) := by
  induction ts generalizing s with
  | nil => rfl
  | cons t ts ih =>
    calc runFrames ts (frame t (setRot r s))
        = runFrames ts (setRot r (frame t s)) := by rw [frame_setRot]
      _ = setRot r (runFrames ts (frame t s)) := ih (frame t s)

/-- Portrait and Portrait-Inverted (R101). -/
theorem axisMap_of_not_swapsAxes {r : Rotation} (h : swapsAxes r = false) (x0 y0 x1 y1 : Coord) :
    axisMap r x0 y0 x1 y1 = ⟨x0, x1, y0, y1⟩ := by
  simp [axisMap, h]

/-- Landscape and Landscape-Inverted (R101). -/
theorem axisMap_of_swapsAxes {r : Rotation} (h : swapsAxes r = true) (x0 y0 x1 y1 : Coord) :
    axisMap r x0 y0 x1 y1 = ⟨y0, y1, x0, x1⟩ := by
  simp [axisMap, h]

/-- The transactions of SETWIN depend on its rotation and coordinates through the mapped window alone (R102). -/
theorem setwinTransactions_congr {r r' : Rotation} {x0 y0 x1 y1 x0' y0' x1' y1' : Coord}
    (h : axisMap r x0 y0 x1 y1 = axisMap r' x0' y0' x1' y1') :
    setwinTransactions r x0 y0 x1 y1 = setwinTransactions r' x0' y0' x1' y1' := by
  simp only [setwinTransactions, h]

/-- SETWIN with a rotation (R100): the frames run as they would under any S.ROT, and S.ROT stays. -/
theorem exec_setwin_setRot (r : Rotation) (x0 y0 x1 y1 : Coord) (s : State) :
    exec (.setwin x0 y0 x1 y1) (setRot r s) =
      .next (setRot r (endOp (runFrames (setwinTransactions r x0 y0 x1 y1) (beginOp .setwin s)))) := by
  have frames := runFrames_setRot (setwinTransactions r x0 y0 x1 y1) r (beginOp .setwin s)
  exact congrArg (fun t => Host.Outcome.next (endOp t)) frames

/-- SETWIN under two rotations leaves the same but for S.ROT, when both map their coordinates to one window. -/
theorem exec_setwin_of_same_window {r r' : Rotation} {x0 y0 x1 y1 x0' y0' x1' y1' : Coord} {s t : State}
    (window : axisMap r' x0' y0' x1' y1' = axisMap r x0 y0 x1 y1)
    (ran : exec (.setwin x0 y0 x1 y1) (setRot r s) = .next t) :
    exec (.setwin x0' y0' x1' y1') (setRot r' s) = .next (setRot r' t) := by
  rw [exec_setwin_setRot] at ran ⊢
  cases ran
  rw [setwinTransactions_congr window]
  rfl

/-- Settles O20: ROT[0] decides each row of the map, and rotation 2, or 1 and 3 with the axes swapped, map to the window of
rotation 0, so `exec_setwin_of_same_window` carries its next state over. -/
theorem axesSwapInLandscape : Obligations.AxesSwapInLandscape := by
  intro s x0 y0 x1 y1
  have rot0 := axisMap_of_not_swapsAxes (r := 0) rfl
  have rot1 := axisMap_of_swapsAxes (r := 1) rfl
  have rot2 := axisMap_of_not_swapsAxes (r := 2) rfl
  have rot3 := axisMap_of_swapsAxes (r := 3) rfl
  have portrait := exec_setwin_setRot 0 x0 y0 x1 y1 s
  refine ⟨⟨rot0 .., rot1 .., rot2 .., rot3 ..⟩, _, portrait, ?_, ?_, ?_⟩
  · exact exec_setwin_of_same_window ((rot2 ..).trans (rot0 ..).symm) portrait
  · exact exec_setwin_of_same_window ((rot1 ..).trans (rot0 ..).symm) portrait
  · exact exec_setwin_of_same_window ((rot3 ..).trans (rot0 ..).symm) portrait

end Sys2Proof.Machine
end

