-- ==== Sys2Proof/Proofs/RotationState.lean ====
section
/-! SUPPORT. Proofs/RotationState.lean: the orientation byte and the clamp of SETROT (R110 to R112), and what each move of the
system does to S.ROT (R114). -/

namespace Sys2Proof.Machine

/-! ### The orientation byte and the clamp -/

/-- Settles O25: each rotation's byte is a branch of the definition. -/
theorem orientationByteTable : Obligations.OrientationByteTable := ⟨rfl, rfl, rfl, rfl⟩

theorem clampRotation_of_gt {rIn : Word18} (h : rIn.toNat > 3) : clampRotation rIn = 0 := if_pos h

theorem clampRotation_zero : clampRotation 0 = 0 := rfl

/-- Memory-Access-Control and Portrait's byte (R110, R111). -/
theorem setrotTransactions_zero : setrotTransactions 0 = [Expect.cmd 0x36, Expect.dat 0x48] := rfl

@[simp] theorem frame_trace (t : Transaction) (s : State) : (frame t s).trace = s.trace ++ [t] := by rw [frame_eq]

@[simp] theorem runFrames_trace (ts : List Transaction) (s : State) : (runFrames ts s).trace = s.trace ++ ts := by
  induction ts generalizing s with
  | nil => exact (List.append_nil _).symm
  | cons t ts ih =>
    calc (runFrames ts (frame t s)).trace
        = (s.trace ++ [t]) ++ ts := by rw [ih, frame_trace]
      _ = s.trace ++ t :: ts := List.append_cons .. |>.symm

/-- SETROT's whole next state (R110). -/
theorem exec_setrot (rIn : Word18) (s : State) :
    exec (.setrot rIn) s =
      .next (endOp (setRot (clampRotation rIn) (runFrames (setrotTransactions rIn) (beginOp .setrot s)))) := rfl

/-- SETROT depends on its input through the clamped rotation alone (R110). -/
theorem exec_setrot_congr {rIn rIn' : Word18} (h : clampRotation rIn = clampRotation rIn') (s : State) :
    exec (.setrot rIn) s = exec (.setrot rIn') s := by
  simp only [exec_setrot, setrotTransactions, h]

/-- Settles O23: the clamp takes an input above 3 to 0, as it takes 0 itself, so the two run the same; the run of rotation 0
appends its two transactions. -/
theorem setrotClampsToPortrait : Obligations.SetrotClampsToPortrait := by
  intro s rIn above
  have same := exec_setrot_congr ((clampRotation_of_gt above).trans clampRotation_zero.symm) s
  have sent := runFrames_trace (setrotTransactions 0) (beginOp .setrot s)
  rw [setrotTransactions_zero] at sent
  exact ⟨_, same.trans (exec_setrot 0 s), exec_setrot 0 s, sent, rfl⟩

/-! ### The op code of a decoded SETROT -/

/-- The request of a listed command code has WRCMD's op code, not SETROT's (R70). -/
theorem commandOf_ne_setrot (c : Byte) (r : Word18) : commandOf c ≠ some (.setrot r) := by
  intro listed
  have wrcmdOp : (some (wrcmdRequest c)).map (fun w => w.toNat % 8) = some 1 := Laws.OpField.wrcmd c
  have setrotOp : (encode (.setrot r)).map (fun w => w.toNat % 8) = some 4 := Laws.OpField.setrot r
  rw [encode_of_commandOf c _ listed, wrcmdOp] at setrotOp
  cases setrotOp

/-- SETROT alone is spelled SETROT. -/
theorem eq_setrot_of_spell {i : Instr} {r : Word18} (h : .setrot r = i.spell) : i = .setrot r := by
  cases i with
  | wrcmd c =>
    rw [spell_wrcmd] at h
    cases listed : commandOf c with
    | none => rw [listed] at h; cases h
    | some j =>
      rw [listed] at h
      exact absurd (h ▸ listed) (commandOf_ne_setrot c r)
  | _ => exact h.symm

theorem reqOp_of_decodeOperation_setrot {w : Request} {r : Word18} (h : decodeOperation w = .ok (.setrot r)) :
    reqOp w = 4 := by
  obtain ⟨reserved0, reserved5, reserved6, reserved7⟩ := decodeOperation_reserved w
  obtain op | op | op | op | op | op | op | op := reqOp_cases w
  · rw [reserved0 op] at h; cases h
  · rw [decodeOperation_op1 w op] at h; split_ifs at h; cases h
  · rw [decodeOperation_op2 w op] at h; split_ifs at h; cases h
  · rw [decodeOperation_op3 w op] at h; split_ifs at h; cases h
  · exact op
  · rw [reserved5 op] at h; cases h
  · rw [reserved6 op] at h; cases h
  · rw [reserved7 op] at h; cases h

/-- A request word that decodes to SETROT has op code 4 (R61). -/
theorem op_of_decode_setrot {w : Request} {r : Word18} (h : decode w = .ok (.setrot r)) : w.toNat % 8 = 4 := by
  obtain ⟨i, decoded, spelled⟩ := (decode_eq_ok w _).mp h
  rw [eq_setrot_of_spell spelled] at decoded
  have op := congrArg BitVec.toNat (reqOp_of_decodeOperation_setrot decoded)
  rwa [reqOp_toNat] at op

/-! ### What an instruction does to S.ROT -/

@[simp] theorem frame_rot (t : Transaction) (s : State) : (frame t s).rot = s.rot := by rw [frame_eq]

@[simp] theorem runFrames_rot (ts : List Transaction) (s : State) : (runFrames ts s).rot = s.rot := by
  induction ts generalizing s with
  | nil => rfl
  | cons t ts ih => exact (ih (frame t s)).trans (frame_rot t s)

theorem runWrcmd_rot (c : Byte) (s : State) : (runWrcmd c s).rot = s.rot := by simp [runWrcmd]

theorem exec_setwin_rot {x0 y0 x1 y1 : Coord} {s t : State} (ran : exec (.setwin x0 y0 x1 y1) s = .next t) :
    t.rot = s.rot := by
  simp only [exec, execSetwin] at ran
  split at ran
  · cases ran; rfl
  · cases ran; simp

/-- No instruction but SETROT writes S.ROT (R114). -/
theorem exec_rot_of_ne_setrot {i : Instr} {s t : State} (ran : exec i s = .next t) (other : ∀ r, i ≠ .setrot r) :
    t.rot = s.rot := by
  cases i with
  | setrot r => exact absurd rfl (other r)
  | setwin x0 y0 x1 y1 => exact exec_setwin_rot ran
  | wrdat w => cases ran; exact frame_rot ⟨.dat, w⟩ (beginOp .wrdat s)
  | busWrite w | reservedOp0 rest | reservedOp5 rest | reservedOp6 rest | reservedOp7 rest => cases ran; rfl
  | wrcmd c => cases ran; exact runWrcmd_rot c s
  | slpin | slpout | dispoff | dispon | caset | paset | ramwr | madctl | pixfmt | ifmode =>
    cases ran; exact runWrcmd_rot _ s

/-! ### What the moves of a step do to S.ROT -/

theorem framePinWrite_rot (t : Transaction) (s : State) : (framePinWrite t s).rot = s.rot := by
  unfold framePinWrite
  split <;> simp

theorem finishOp_rot_of_ne_setrot {op : Op} (other : op ≠ .setrot) (s : State) : (finishOp op s).rot = s.rot := by
  cases op with
  | wrcmd | wrdat | setwin => rfl
  | setrot => exact absurd rfl other

/-- A busy block writes S.ROT only in a SETROT (R110, R114). -/
theorem tick_rot_of_ne_setrot {s : State} {op : Op} {n : Nat} (busy : s.phase = .busy op n) (other : op ≠ .setrot) :
    (tick s).rot = s.rot := by
  cases due : (opTransactions s op)[n]? with
  | some t => rw [tick_of_frame s op n t busy due, framePinWrite_rot]
  | none => simp only [tick, busy, due, finishOp_rot_of_ne_setrot other]

/-- An instruction without frames is not SETROT. -/
theorem ne_setrot_of_startsOp_none {i : Instr} {s : State} (h : startsOp i s = none) (r : Word18) : i ≠ .setrot r := by
  rintro rfl
  cases h

theorem acceptWhole_rot {s t : State} (accepted : acceptWhole s = .next t)
    (other : ∀ r, decode s.reqIn ≠ .ok (.setrot r)) : t.rot = s.rot := by
  unfold acceptWhole at accepted
  split at accepted
  · next i decoded =>
    have kept := exec_rot_of_ne_setrot accepted fun r isSetrot => other r (isSetrot ▸ decoded)
    exact kept.trans (latchRequest_rot s)
  · cases accepted; rfl

/-- An acceptance that stops at the start of the frames leaves S.ROT to the operation's end (R110). -/
theorem acceptStart_rot {s t : State} (accepted : acceptStart s = .next t) : t.rot = s.rot := by
  unfold acceptStart at accepted
  split at accepted
  · next i decoded =>
    split at accepted
    · cases accepted; rfl
    · next unframed =>
      have kept := exec_rot_of_ne_setrot accepted (ne_setrot_of_startsOp_none unframed)
      exact kept.trans (latchRequest_rot s)
  · cases accepted; rfl

theorem makeCall_rot {c : Call} {rest : List ClientAction} {s t : State} (moved : makeCall c rest s = .next t) :
    t.rot = s.rot := by
  obtain ⟨p, -, call⟩ | ⟨p, l, -, call⟩ | ⟨-, call⟩ | ⟨-, call⟩ := makeCall_cases c rest s
  · rw [call, afterSampling_eq] at moved; cases moved; rfl
  · rw [call] at moved; cases moved; rfl
  · rw [call] at moved; cases moved
  · rw [call] at moved; cases moved

/-- The client does not reach S.ROT but through a request. -/
theorem clientMove_rot {s t : State} (moved : clientMove s = .next t) : t.rot = s.rot := by
  unfold clientMove at moved
  split_ifs at moved
  split at moved
  case h_6 c rest called => exact makeCall_rot moved
  all_goals cases moved; rfl

/-- Settles O37: of the cases of `step_cases`, the client's move keeps S.ROT, and so does a move or an acceptance of any operation
but SETROT; a step that changes S.ROT is one of the cases left: a due reset, or a SETROT accepted or under way. -/
theorem rotationKeptUntilSetrotOrReset : Obligations.RotationKeptUntilSetrotOrReset := by
  refine ⟨fun s t i ran other => exec_rot_of_ne_setrot ran other, fun s t stepped changed => ?_⟩
  obtain ⟨rest, due, -⟩ | ⟨rs, -, ⟨op, n, busy, move⟩ | ⟨idle, valid, move⟩ | ⟨-, -, move⟩⟩ := step_cases s
  · exact .inl (by rw [due]; rfl)
  · rw [move] at stepped
    cases stepped
    by_cases isSetrot : op = .setrot
    · exact .inr (.inr ⟨n, isSetrot ▸ busy⟩)
    · exact absurd (tick_rot_of_ne_setrot (s := { s with resets := rs }) busy isSetrot) changed
  · refine .inr (.inl ⟨idle, valid, ?_⟩)
    by_contra otherOp
    rw [move] at stepped
    split_ifs at stepped
    · have kept := acceptWhole_rot stepped fun r decoded => otherOp (op_of_decode_setrot decoded)
      exact changed kept
    · have kept := acceptStart_rot stepped
      exact changed kept
  · have kept := clientMove_rot (move.symm.trans stepped)
    exact absurd kept changed

end Sys2Proof.Machine
end

