-- ==== Sys2Proof/Proofs/ClientSequences.lean ====
section
/-! SUPPORT. Proofs/ClientSequences.lean: the masked colour of the drawing sequences as a number and as the word on the bus
(R120). -/

namespace Sys2Proof.Machine

/-- The mask leaves nothing above bit 17, so the 18-bit word holds the whole masked value (R120). -/
@[simp] theorem maskColor_toNat (c : Nat) : (maskColor c).toNat = c &&& colorMask := by
  have fits : c &&& colorMask < 2 ^ 18 := Nat.and_lt_two_pow c (by decide)
  exact (BitVec.toNat_ofNat ..).trans (Nat.mod_eq_of_lt fits)

/-- An operation of one framed write leaves what the spec words for it, whichever kind it sends (R90, R91). -/
theorem endOp_frame_beginOp (op : Op) (t : Transaction) (s : State) :
    endOp (frame t (beginOp op s)) = Expect.afterFrames [] t s := by
  have sent : s.trace ++ [t] = s.trace ++ [] ++ [t] := by rw [List.append_nil]
  rw [frame_eq, endOp, beginOp, sent]
  cases t with
  | mk kind w =>
    cases kind with
    | cmd => rfl
    | dat => rfl

/-- WRDAT's whole next state: one data frame of the word as given, then Idle (R91). -/
theorem exec_wrdat (w : Word18) (s : State) : exec (.wrdat w) s = .next (Expect.afterFrames [] ⟨.dat, w⟩ s) :=
  congrArg Host.Outcome.next (endOp_frame_beginOp .wrdat ⟨.dat, w⟩ s)

/-- Settles O44: the mask fits the word, and WRDAT sends the word it is given. -/
theorem coloursAreMaskedTo18Bits : Obligations.ColoursAreMaskedTo18Bits :=
  fun s c => ⟨maskColor_toNat c, exec_wrdat (maskColor c) s⟩

end Sys2Proof.Machine
end

