-- ==== Sys2Proof/Proofs/RequestWord.lean ====
section
/-! SUPPORT. Proofs/RequestWord.lean: the fields of a packed request word, and the decoder and the encoder as inverses of each
other (R60 to R71). -/

namespace Sys2Proof

/-! ### The fields of a packed word (R60) -/

@[simp] theorem reqOp_packRequest (op : BitVec 3) (a0 a1 a2 a3 : Word18) : reqOp (packRequest op a0 a1 a2 a3) = op := by
  have := op.isLt
  apply BitVec.eq_of_toNat_eq
  rw [reqOp_toNat, packRequest_toNat]
  omega

@[simp] theorem reqA0_packRequest (op : BitVec 3) (a0 a1 a2 a3 : Word18) : reqA0 (packRequest op a0 a1 a2 a3) = a0 := by
  have := op.isLt; have := a0.isLt
  apply BitVec.eq_of_toNat_eq
  rw [reqA0_toNat, packRequest_toNat]
  omega

@[simp] theorem reqA1_packRequest (op : BitVec 3) (a0 a1 a2 a3 : Word18) : reqA1 (packRequest op a0 a1 a2 a3) = a1 := by
  have := op.isLt; have := a0.isLt; have := a1.isLt
  apply BitVec.eq_of_toNat_eq
  rw [reqA1_toNat, packRequest_toNat]
  omega

@[simp] theorem reqA2_packRequest (op : BitVec 3) (a0 a1 a2 a3 : Word18) : reqA2 (packRequest op a0 a1 a2 a3) = a2 := by
  have := op.isLt; have := a0.isLt; have := a1.isLt; have := a2.isLt
  apply BitVec.eq_of_toNat_eq
  rw [reqA2_toNat, packRequest_toNat]
  omega

@[simp] theorem reqA3_packRequest (op : BitVec 3) (a0 a1 a2 a3 : Word18) : reqA3 (packRequest op a0 a1 a2 a3) = a3 := by
  have := op.isLt; have := a0.isLt; have := a1.isLt; have := a2.isLt; have := a3.isLt
  apply BitVec.eq_of_toNat_eq
  rw [reqA3_toNat, packRequest_toNat]
  omega

/-- A request word is the packing of its own fields. -/
theorem packRequest_fields (w : Request) : packRequest (reqOp w) (reqA0 w) (reqA1 w) (reqA2 w) (reqA3 w) = w := by
  have := w.isLt
  apply BitVec.eq_of_toNat_eq
  simp only [packRequest_toNat, reqOp_toNat, reqA0_toNat, reqA1_toNat, reqA2_toNat, reqA3_toNat]
  omega

@[simp] theorem reqOp_reservedWord (rest : BitVec 72) (op : BitVec 3) : reqOp (rest ++ op) = op := by
  have := op.isLt
  apply BitVec.eq_of_toNat_eq
  rw [reqOp_toNat, reservedWord_toNat]
  omega

@[simp] theorem reqRest_reservedWord (rest : BitVec 72) (op : BitVec 3) : reqRest (rest ++ op) = rest := by
  have := op.isLt
  apply BitVec.eq_of_toNat_eq
  rw [reqRest_toNat, reservedWord_toNat]
  omega

/-- A request word is its op code below its other bits. -/
theorem reservedWord_fields (w : Request) : reqRest w ++ reqOp w = w := by
  apply BitVec.eq_of_toNat_eq
  rw [reservedWord_toNat, reqRest_toNat, reqOp_toNat]
  omega

/-- Settles O3: the packed word is its fields' shifted bits, as concatenation is, and each field is read back. -/
theorem requestWordInNumbers : Obligations.RequestWordInNumbers := by
  refine ⟨fun op a0 a1 a2 a3 => ?_, fun op a0 a1 a2 a3 => ?_⟩
  · simp only [packRequest, BitVec.toNat_append, Nat.shiftLeft_or_distrib, ← Nat.shiftLeft_add]
    simp only [Nat.or_comm, Nat.or_assoc]
  · exact ⟨reqOp_packRequest .., reqA0_packRequest .., reqA1_packRequest .., reqA2_packRequest .., reqA3_packRequest ..⟩

/-! ### An operand inside its field (R65) -/

@[simp] theorem hiBits10_setWidth (c : Byte) : hiBits10 (c.setWidth 18) = 0 := by
  have := c.isLt
  apply BitVec.eq_of_toNat_eq
  simp
  omega

@[simp] theorem byteField_setWidth (c : Byte) : byteField (c.setWidth 18) = c := by
  apply BitVec.eq_of_toNat_eq
  simp
  omega

@[simp] theorem hiBits2_setWidth (v : Coord) : hiBits2 (v.setWidth 18) = 0 := by
  have := v.isLt
  apply BitVec.eq_of_toNat_eq
  simp
  omega

@[simp] theorem coordField_setWidth (v : Coord) : coordField (v.setWidth 18) = v := by
  apply BitVec.eq_of_toNat_eq
  simp
  omega

theorem setWidth_byteField {a : Word18} (h : hiBits10 a = 0) : (byteField a).setWidth 18 = a := by
  have hi := congrArg BitVec.toNat h
  apply BitVec.eq_of_toNat_eq
  simp at hi ⊢
  omega

theorem setWidth_coordField {a : Word18} (h : hiBits2 a = 0) : (coordField a).setWidth 18 = a := by
  have hi := congrArg BitVec.toNat h
  apply BitVec.eq_of_toNat_eq
  simp at hi ⊢
  omega

/-! ### The command codes of R62 -/

theorem commandOf_eq_some (c : Byte) (i : Instr) : commandOf c = some i ↔ i.commandCode = some c := by
  constructor
  · unfold commandOf
    intro h
    split_ifs at h <;> cases h <;> subst c <;> rfl
  · cases i <;> intro h <;> cases h <;> rfl

theorem wellFormed_of_commandCode {i : Instr} {c : Byte} (h : i.commandCode = some c) : i.wellFormed = true := by
  cases i with
  | wrcmd | busWrite => cases h
  | _ => rfl

/-! ### Decoding an encoded instruction -/

theorem decode_wrcmdRequest (c : Byte) : decode (wrcmdRequest c) = .ok (Instr.wrcmd c).spell := by
  refine (decode_eq_ok _ _).mpr ⟨_, (decodeOperation_op1 _ (reqOp_packRequest ..)).trans ?_, rfl⟩
  simp

theorem decode_wrdatRequest (w : Word18) : decode (packRequest 2 w 0 0 0) = .ok (.wrdat w) := by
  refine (decode_eq_ok _ _).mpr ⟨.wrdat w, (decodeOperation_op2 _ (reqOp_packRequest ..)).trans ?_, rfl⟩
  simp

theorem decode_setwinRequest (x0 y0 x1 y1 : Coord) :
    decode (packRequest 3 (x0.setWidth 18) (y0.setWidth 18) (x1.setWidth 18) (y1.setWidth 18)) =
      .ok (.setwin x0 y0 x1 y1) := by
  refine (decode_eq_ok _ _).mpr ⟨.setwin x0 y0 x1 y1, (decodeOperation_op3 _ (reqOp_packRequest ..)).trans ?_, rfl⟩
  simp

theorem decode_setrotRequest (r : Word18) : decode (packRequest 4 r 0 0 0) = .ok (.setrot r) := by
  refine (decode_eq_ok _ _).mpr ⟨.setrot r, (decodeOperation_op4 _ (reqOp_packRequest ..)).trans ?_, rfl⟩
  simp

/-- A reserved op code decodes to its constructor whatever the other bits (R68, R144). -/
theorem decode_reservedWord (rest : BitVec 72) :
    decode (rest ++ 0#3) = .ok (.reservedOp0 rest) ∧ decode (rest ++ 5#3) = .ok (.reservedOp5 rest) ∧
    decode (rest ++ 6#3) = .ok (.reservedOp6 rest) ∧ decode (rest ++ 7#3) = .ok (.reservedOp7 rest) := by
  have decoded := fun op : BitVec 3 => decodeOperation_reserved (rest ++ op)
  simp only [reqOp_reservedWord, reqRest_reservedWord] at decoded
  refine ⟨?_, ?_, ?_, ?_⟩
  · exact (decode_eq_ok _ _).mpr ⟨_, (decoded 0).1 rfl, rfl⟩
  · exact (decode_eq_ok _ _).mpr ⟨_, (decoded 5).2.1 rfl, rfl⟩
  · exact (decode_eq_ok _ _).mpr ⟨_, (decoded 6).2.2.1 rfl, rfl⟩
  · exact (decode_eq_ok _ _).mpr ⟨_, (decoded 7).2.2.2 rfl, rfl⟩

/-- An instruction's request word decodes to the instruction's one spelling (R67, R70). -/
theorem decode_of_encode {i : Instr} {w : Request} (h : encode i = some w) : decode w = .ok i.spell := by
  cases i with
  | wrdat => cases h; exact decode_wrdatRequest _
  | setwin => cases h; exact decode_setwinRequest ..
  | setrot => cases h; exact decode_setrotRequest _
  | reservedOp0 rest => cases h; exact (decode_reservedWord rest).1
  | reservedOp5 rest => cases h; exact (decode_reservedWord rest).2.1
  | reservedOp6 rest => cases h; exact (decode_reservedWord rest).2.2.1
  | reservedOp7 rest => cases h; exact (decode_reservedWord rest).2.2.2
  | busWrite => cases h
  | _ => cases h; exact decode_wrcmdRequest _

/-- A well-formed instruction is its own spelling (R70). -/
theorem spell_of_wellFormed {i : Instr} (h : i.wellFormed = true) : i.spell = i := by
  cases i with
  | wrcmd c =>
    have unlisted : commandOf c = none := Option.isNone_iff_eq_none.mp h
    rw [spell_wrcmd, unlisted, Option.getD_none]
  | _ => rfl

theorem exists_encode_of_wellFormed {i : Instr} (h : i.wellFormed = true) : ∃ w, encode i = some w := by
  cases i with
  | busWrite => cases h
  | _ => exact ⟨_, rfl⟩

/-- Settles O1: the request word decodes to the instruction's spelling, which for a well-formed one is the instruction. -/
theorem decodeInvertsEncode : Obligations.DecodeInvertsEncode := by
  intro i wellFormed
  obtain ⟨w, encoded⟩ := exists_encode_of_wellFormed wellFormed
  refine ⟨w, encoded, ?_⟩
  rw [decode_of_encode encoded, spell_of_wellFormed wellFormed]

/-! ### Encoding a decoded word -/

/-- What R67 decodes keeps every bit of the word. -/
theorem encode_of_decodeOperation {w : Request} {i : Instr} (h : decodeOperation w = .ok i) : encode i = some w := by
  have fields := packRequest_fields w
  have rest := reservedWord_fields w
  obtain ⟨reserved0, reserved5, reserved6, reserved7⟩ := decodeOperation_reserved w
  obtain op | op | op | op | op | op | op | op := reqOp_cases w <;> rw [op] at fields rest
  · cases (reserved0 op).symm.trans h
    exact congrArg some rest
  · rw [decodeOperation_op1 w op] at h
    split_ifs at h with clear
    cases h
    simp only [not_or, not_not] at clear
    obtain ⟨hi, a1, a2, a3⟩ := clear
    rw [a1, a2, a3] at fields
    rw [encode, wrcmdRequest, setWidth_byteField hi, fields]
  · rw [decodeOperation_op2 w op] at h
    split_ifs at h with clear
    cases h
    simp only [not_or, not_not] at clear
    obtain ⟨a1, a2, a3⟩ := clear
    rw [a1, a2, a3] at fields
    exact congrArg some fields
  · rw [decodeOperation_op3 w op] at h
    split_ifs at h with clear
    cases h
    simp only [not_or, not_not] at clear
    obtain ⟨hi0, hi1, hi2, hi3⟩ := clear
    rw [encode, setWidth_coordField hi0, setWidth_coordField hi1, setWidth_coordField hi2, setWidth_coordField hi3, fields]
  · rw [decodeOperation_op4 w op] at h
    split_ifs at h with clear
    cases h
    simp only [not_or, not_not] at clear
    obtain ⟨a1, a2, a3⟩ := clear
    rw [a1, a2, a3] at fields
    exact congrArg some fields
  · cases (reserved5 op).symm.trans h
    exact congrArg some rest
  · cases (reserved6 op).symm.trans h
    exact congrArg some rest
  · cases (reserved7 op).symm.trans h
    exact congrArg some rest

/-- The name of a listed code and WRCMD of the code are one request word (R70). -/
theorem encode_spell (i : Instr) : encode i.spell = encode i := by
  cases i with
  | wrcmd c =>
    rw [spell_wrcmd]
    cases listed : commandOf c with
    | none => rfl
    | some j => exact encode_of_commandOf c j listed
  | _ => rfl

theorem wellFormed_spell {i : Instr} {w : Request} (h : encode i = some w) : i.spell.wellFormed = true := by
  cases i with
  | wrcmd c =>
    rw [spell_wrcmd]
    cases listed : commandOf c with
    | none => rw [Option.getD_none, Instr.wellFormed, listed, Option.isNone_none]
    | some j => exact wellFormed_of_commandCode ((commandOf_eq_some c j).mp listed)
  | busWrite => cases h
  | _ => rfl

theorem encode_of_decode {w : Request} {i : Instr} (h : decode w = .ok i) : encode i = some w := by
  obtain ⟨j, decoded, rfl⟩ := (decode_eq_ok w i).mp h
  rw [encode_spell, encode_of_decodeOperation decoded]

/-- Settles O2: the decoded operation encodes to the word, and spelling it makes it well-formed without changing its word. -/
theorem encodeInvertsDecode : Obligations.EncodeInvertsDecode := by
  intro w i h
  refine ⟨?_, encode_of_decode h⟩
  obtain ⟨j, decoded, rfl⟩ := (decode_eq_ok w i).mp h
  exact wellFormed_spell (encode_of_decodeOperation decoded)

/-! ### The should-be-zero bits and the operands as numbers (R65) -/

theorem ne_zero_iff_toNat {n : Nat} (a : BitVec n) : a ≠ 0 ↔ a.toNat ≠ 0 := by
  simp [BitVec.toNat_eq]

/-- The fields above a0 hold a 1 exactly when the number above bit 20 does. -/
theorem upperFields_ne_zero (w : Request) : (reqA1 w ≠ 0 ∨ reqA2 w ≠ 0 ∨ reqA3 w ≠ 0) ↔ w.toNat / 2 ^ 21 ≠ 0 := by
  have := w.isLt
  simp only [ne_zero_iff_toNat, reqA1_toNat, reqA2_toNat, reqA3_toNat]
  omega

theorem wrcmdReserved_ne_zero (w : Request) :
    (hiBits10 (reqA0 w) ≠ 0 ∨ reqA1 w ≠ 0 ∨ reqA2 w ≠ 0 ∨ reqA3 w ≠ 0) ↔ w.toNat / 2 ^ 11 ≠ 0 := by
  rw [upperFields_ne_zero, ne_zero_iff_toNat, hiBits10_toNat, reqA0_toNat]
  omega

theorem setwinReserved_ne_zero (w : Request) :
    (hiBits2 (reqA0 w) ≠ 0 ∨ hiBits2 (reqA1 w) ≠ 0 ∨ hiBits2 (reqA2 w) ≠ 0 ∨ hiBits2 (reqA3 w) ≠ 0) ↔
      (w.toNat / 2 ^ 19 % 4 ≠ 0 ∨ w.toNat / 2 ^ 37 % 4 ≠ 0 ∨ w.toNat / 2 ^ 55 % 4 ≠ 0 ∨ w.toNat / 2 ^ 73 ≠ 0) := by
  have := w.isLt
  simp only [ne_zero_iff_toNat, hiBits2_toNat, reqA0_toNat, reqA1_toNat, reqA2_toNat, reqA3_toNat]
  omega

theorem reqRest_eq_ofNat (w : Request) : reqRest w = BitVec.ofNat 72 (w.toNat / 8) := by
  have := w.isLt
  apply BitVec.eq_of_toNat_eq
  rw [reqRest_toNat, BitVec.toNat_ofNat]
  omega

theorem reqA0_eq_ofNat (w : Request) : reqA0 w = BitVec.ofNat 18 (w.toNat / 8) :=
  BitVec.eq_of_toNat_eq ((reqA0_toNat w).trans (BitVec.toNat_ofNat ..).symm)

theorem coordField_eq_ofNat {a : Word18} {n : Nat} (h : a.toNat = n % 2 ^ 18) : coordField a = BitVec.ofNat 16 n := by
  apply BitVec.eq_of_toNat_eq
  rw [coordField_toNat, h, BitVec.toNat_ofNat]
  omega

/-! ### Decoding in numbers (R67, R68) -/

theorem reqOp_eq_of_toNat {w : Request} {op : BitVec 3} (h : w.toNat % 8 = op.toNat) : reqOp w = op :=
  BitVec.eq_of_toNat_eq ((reqOp_toNat w).trans h)

/-- A check of R67 refuses the word exactly when its condition holds. -/
theorem refusal_of_check (p : Prop) [Decidable p] (i : Instr) :
    (if p then .error .reservedBits else .ok i : Except DecodeError Instr) = .error .reservedBits ↔ p := by
  by_cases h : p <;> simp [h]

theorem decode_eq_reservedBits (w : Request) : decode w = .error .reservedBits ↔ Expect.reservedBit w.toNat := by
  obtain ⟨reserved0, reserved5, reserved6, reserved7⟩ := decodeOperation_reserved w
  rw [decode_eq_error, Expect.reservedBit]
  obtain op | op | op | op | op | op | op | op := reqOp_cases w
  all_goals have opNat : w.toNat % 8 = _ := (reqOp_toNat w).symm.trans (congrArg BitVec.toNat op)
  · simp [reserved0 op, opNat]
  · rw [decodeOperation_op1 w op, refusal_of_check, wrcmdReserved_ne_zero]
    simp [opNat]
  · rw [decodeOperation_op2 w op, refusal_of_check, upperFields_ne_zero]
    simp [opNat]
  · rw [decodeOperation_op3 w op, refusal_of_check, setwinReserved_ne_zero]
    simp [opNat]
  · rw [decodeOperation_op4 w op, refusal_of_check, upperFields_ne_zero]
    simp [opNat]
  · simp [reserved5 op, opNat]
  · simp [reserved6 op, opNat]
  · simp [reserved7 op, opNat]

/-- A word whose low three bits are a reserved op code is that op code below its other bits. -/
theorem eq_reservedWord {w : Request} {op : BitVec 3} (h : w.toNat % 8 = op.toNat) :
    w = BitVec.ofNat 72 (w.toNat / 8) ++ op := by
  rw [← reqRest_eq_ofNat, ← reqOp_eq_of_toNat h, reservedWord_fields]

theorem decode_op2 {w : Request} (op : w.toNat % 8 = 2) (clear : ¬ Expect.reservedBit w.toNat) :
    decode w = .ok (.wrdat (BitVec.ofNat 18 (w.toNat / 8))) := by
  have fields : ¬ (reqA1 w ≠ 0 ∨ reqA2 w ≠ 0 ∨ reqA3 w ≠ 0) := by
    rw [upperFields_ne_zero]
    exact fun set => clear (.inr (.inl ⟨op, set⟩))
  have decoded := (decodeOperation_op2 w (reqOp_eq_of_toNat op)).trans (if_neg fields)
  rw [← reqA0_eq_ofNat]
  exact (decode_eq_ok _ _).mpr ⟨_, decoded, rfl⟩

theorem decode_op3 {w : Request} (op : w.toNat % 8 = 3) (clear : ¬ Expect.reservedBit w.toNat) :
    decode w = .ok (.setwin (BitVec.ofNat 16 (w.toNat / 2 ^ 3)) (BitVec.ofNat 16 (w.toNat / 2 ^ 21))
      (BitVec.ofNat 16 (w.toNat / 2 ^ 39)) (BitVec.ofNat 16 (w.toNat / 2 ^ 57))) := by
  have fields : ¬ (hiBits2 (reqA0 w) ≠ 0 ∨ hiBits2 (reqA1 w) ≠ 0 ∨ hiBits2 (reqA2 w) ≠ 0 ∨ hiBits2 (reqA3 w) ≠ 0) := by
    rw [setwinReserved_ne_zero]
    exact fun set => clear (.inr (.inr (.inr ⟨op, set⟩)))
  have decoded := (decodeOperation_op3 w (reqOp_eq_of_toNat op)).trans (if_neg fields)
  rw [← coordField_eq_ofNat (reqA0_toNat w), ← coordField_eq_ofNat (reqA1_toNat w), ← coordField_eq_ofNat (reqA2_toNat w),
    ← coordField_eq_ofNat (reqA3_toNat w)]
  exact (decode_eq_ok _ _).mpr ⟨_, decoded, rfl⟩

theorem decode_op4 {w : Request} (op : w.toNat % 8 = 4) (clear : ¬ Expect.reservedBit w.toNat) :
    decode w = .ok (.setrot (BitVec.ofNat 18 (w.toNat / 8))) := by
  have fields : ¬ (reqA1 w ≠ 0 ∨ reqA2 w ≠ 0 ∨ reqA3 w ≠ 0) := by
    rw [upperFields_ne_zero]
    exact fun set => clear (.inr (.inr (.inl ⟨op, set⟩)))
  have decoded := (decodeOperation_op4 w (reqOp_eq_of_toNat op)).trans (if_neg fields)
  rw [← reqA0_eq_ofNat]
  exact (decode_eq_ok _ _).mpr ⟨_, decoded, rfl⟩

/-- Settles O4: each check of R67 reads the should-be-zero bits of R65 in numbers; a reserved op code is told apart by
`decode_reservedWord`, and a word that passes its check gives the operands of its fields. -/
theorem decodeByOpAndReservedBits : Obligations.DecodeByOpAndReservedBits := by
  intro w
  obtain ⟨op0, op5, op6, op7⟩ := decode_reservedWord (BitVec.ofNat 72 (w.toNat / 8))
  refine ⟨decode_eq_reservedBits w, fun op => ?_, fun op => ?_, fun op => ?_, fun op => ?_, decode_op2, decode_op3, decode_op4⟩
  · exact (congrArg decode (eq_reservedWord op)).trans op0
  · exact (congrArg decode (eq_reservedWord op)).trans op5
  · exact (congrArg decode (eq_reservedWord op)).trans op6
  · exact (congrArg decode (eq_reservedWord op)).trans op7

/-- Settles O5: each word is evaluated by the decoder. -/
theorem specRequestWordsDecode : Obligations.SpecRequestWordsDecode := by
  refine ⟨?_, ?_, ?_, ?_, ?_, ?_, ?_, ?_⟩ <;> decide

/-! ### Commands on the bus (R71) -/

/-- A bus command is a code of R62, alone in its 18-bit word, at command level. -/
theorem decodeBusCommand_eq_some (t : Transaction) (i : Instr) :
    decodeBusCommand t = some i ↔ t.kind = .cmd ∧ ∃ c, i.commandCode = some c ∧ t.word = c.setWidth 18 := by
  obtain ⟨kind, w⟩ := t
  cases kind with
  | dat => simp [decodeBusCommand]
  | cmd =>
    simp only [decodeBusCommand, true_and]
    constructor
    · intro h
      split_ifs at h with hi
      exact ⟨byteField w, (commandOf_eq_some _ i).mp h, (setWidth_byteField hi).symm⟩
    · rintro ⟨c, listed, rfl⟩
      rw [if_pos (hiBits10_setWidth c), byteField_setWidth]
      exact (commandOf_eq_some c i).mpr listed

/-- Settles O6: by `decodeBusCommand_eq_some`, each command's 18-bit word is its code of R62. -/
theorem busCommandByExactMatch : Obligations.BusCommandByExactMatch := by
  intro t i
  rw [decodeBusCommand_eq_some]
  refine and_congr_right fun _ => ?_
  cases i <;> simp [Instr.commandCode]

end Sys2Proof
end

