-- ==== Sys2Proof/Proofs/Instructions.lean ====
section
/-! SUPPORT. Proofs/Instructions.lean: the whole next state of each instruction, and what all instructions that send frames, or
send none, have in common. -/

namespace Sys2Proof.Machine

/-! ### Operands as numbers -/

theorem cmdWord_eq (c : Byte) : cmdWord c = Expect.cmd c.toNat := by rw [cmdWord, Expect.cmd, BitVec.ofNat_toNat]

theorem datByte_eq (b : Byte) : datByte b = Expect.dat b.toNat := by rw [datByte, Expect.dat, BitVec.ofNat_toNat]

@[simp] theorem highByte_toNat (v : Coord) : (highByte v).toNat = v.toNat / 256 := by
  have := v.isLt
  simp [highByte, Nat.shiftRight_eq_div_pow]
  omega

@[simp] theorem lowByte_toNat (v : Coord) : (lowByte v).toNat = v.toNat % 256 := by simp [lowByte]

/-- A value goes out high byte first (R46). -/
theorem coordBytes_eq (v : Coord) : coordBytes v = [Expect.dat (v.toNat / 256), Expect.dat (v.toNat % 256)] := by
  rw [coordBytes, datByte_eq, datByte_eq, highByte_toNat, lowByte_toNat]

@[simp] theorem receiveCoord_toNat (hi lo : Byte) : (receiveCoord hi lo).toNat = hi.toNat * 256 + lo.toNat := by
  have := hi.isLt
  have below := lo.isLt
  have high : (hi.setWidth 16 <<< 8).toNat = hi.toNat <<< 8 := by simp [Nat.shiftLeft_eq]; omega
  rw [receiveCoord, BitVec.toNat_or, high, BitVec.toNat_setWidth, Nat.mod_eq_of_lt (by omega),
    ← Nat.shiftLeft_add_eq_or_of_lt below, Nat.shiftLeft_eq]

/-- Settles O27: the two bytes are the quotient and the remainder by 256. -/
theorem coordinateBytesReadBack : Obligations.CoordinateBytesReadBack := by
  intro v
  refine ⟨coordBytes_eq v, BitVec.eq_of_toNat_eq ?_⟩
  have := v.isLt
  rw [receiveCoord_toNat, BitVec.toNat_ofNat, BitVec.toNat_ofNat]
  omega

/-- The two register sequences of SETWIN as R102 and R103 list them. -/
theorem setwinTransactions_eq (r : Rotation) (x0 y0 x1 y1 : Coord) :
    setwinTransactions r x0 y0 x1 y1 =
      Expect.windowFrames (axisMap r x0 y0 x1 y1).c0 (axisMap r x0 y0 x1 y1).c1 (axisMap r x0 y0 x1 y1).p0
        (axisMap r x0 y0 x1 y1).p1 ++ [Expect.cmd 0x2C] := by
  simp only [setwinTransactions, registerSequence, coordBytes_eq, cmdWord_eq]
  rfl

theorem clampRotation_eq (rIn : Word18) :
    clampRotation rIn = BitVec.ofNat 2 (if rIn.toNat > 3 then 0 else rIn.toNat) := by
  by_cases above : rIn.toNat > 3
  · rw [clampRotation_of_gt above, if_pos above, BitVec.ofNat_eq_ofNat]
  · have notAbove : ¬ rIn > 3 := above
    rw [clampRotation, if_neg notAbove, if_neg above]
    exact BitVec.eq_of_toNat_eq (by simp)

theorem madctlByte_toNat : ∀ r : Rotation, (madctlByte r).toNat = Expect.orientation r.toNat := by decide

/-- Settles O28: the Landscape rotations swap the axes and the canvas alike. -/
theorem mappedWindowStaysOnTheCanvas : Obligations.MappedWindowStaysOnTheCanvas := by
  intro r x0 y0 x1 y1 hx0 hx1 hy0 hy1
  cases swap : swapsAxes r with
  | false =>
    rw [axisMap_of_not_swapsAxes swap]
    simp only [canvasWidth, canvasHeight, swap, Bool.false_eq_true, if_false] at hx0 hx1 hy0 hy1 ⊢
    omega
  | true =>
    rw [axisMap_of_swapsAxes swap]
    simp only [canvasWidth, canvasHeight, swap, if_true] at hx0 hx1 hy0 hy1 ⊢
    omega

/-- Settles O29: each output by its definition. -/
theorem statusOutputs : Obligations.StatusOutputs := by
  refine ⟨fun s => ?_, fun s r set => ?_, by decide, by decide⟩
  · unfold ready
    cases s.phase <;> simp
  · simp [rotOut, set]

/-! ### Each instruction's next state -/

/-- Settles O14: `busWrite_eq` is the whole of it. -/
theorem busWriteClearsSetsAndStrobes : Obligations.BusWriteClearsSetsAndStrobes :=
  fun s w => congrArg Host.Outcome.next (busWrite_eq w s)

/-- An operation's frames, between its start and its end, leave what the spec words for them (R53, R90). -/
theorem endOp_runFrames_beginOp (op : Op) (ts : List Transaction) (last : Transaction) (s : State) :
    endOp (runFrames (ts ++ [last]) (beginOp op s)) = Expect.afterFrames ts last s := by
  rw [runFrames_concat]
  obtain ⟨kind, w⟩ := last
  cases kind <;> simp [endOp, beginOp, Expect.afterFrames, dcxLevel]

theorem runWrcmd_eq (c : Byte) (s : State) : runWrcmd c s = Expect.afterFrames [] (Expect.cmd c.toNat) s := by
  rw [runWrcmd, endOp_frame_beginOp, cmdWord_eq]

/-- A named command is the WRCMD of its code (R70). -/
theorem exec_of_commandCode {i : Instr} {c : Byte} (h : i.commandCode = some c) (s : State) :
    exec i s = .next (Expect.afterFrames [] (Expect.cmd c.toNat) s) := by
  rw [← runWrcmd_eq]
  cases i with
  | slpin | slpout | dispoff | dispon | caset | paset | ramwr | madctl | pixfmt | ifmode => cases h; rfl
  | _ => cases h

/-- Settles O16: `runWrcmd_eq`, for any code. -/
theorem wrcmdSendsOneCommand : Obligations.WrcmdSendsOneCommand :=
  fun s c => congrArg Host.Outcome.next (runWrcmd_eq c s)

/-- Settles O17: `exec_wrdat`, the word read as its number. -/
theorem wrdatSendsOneDataWord : Obligations.WrdatSendsOneDataWord := by
  intro s w
  rw [exec_wrdat, Expect.dat, BitVec.ofNat_toNat, BitVec.setWidth_eq]

/-- Settles O18: each name by its code of R62. -/
theorem commandCodesOnTheBus : Obligations.CommandCodesOnTheBus := by
  intro s
  exact ⟨exec_of_commandCode (c := 0x10) rfl s, exec_of_commandCode (c := 0x11) rfl s, exec_of_commandCode (c := 0x28) rfl s,
    exec_of_commandCode (c := 0x29) rfl s, exec_of_commandCode (c := 0x2A) rfl s, exec_of_commandCode (c := 0x2B) rfl s,
    exec_of_commandCode (c := 0x2C) rfl s, exec_of_commandCode (c := 0x36) rfl s, exec_of_commandCode (c := 0x3A) rfl s,
    exec_of_commandCode (c := 0xB0) rfl s⟩

/-- SETWIN with a rotation, by the window its coordinates map to (R100). -/
theorem exec_setwin_of_rot {s : State} {r : Rotation} (set : s.rot = some r) (x0 y0 x1 y1 : Coord) :
    exec (.setwin x0 y0 x1 y1) s =
      .next (Expect.afterFrames (Expect.windowFrames (axisMap r x0 y0 x1 y1).c0 (axisMap r x0 y0 x1 y1).c1
        (axisMap r x0 y0 x1 y1).p0 (axisMap r x0 y0 x1 y1).p1) (Expect.cmd 0x2C) s) := by
  have ran : execSetwin x0 y0 x1 y1 s = .next (endOp (runFrames (setwinTransactions r x0 y0 x1 y1) (beginOp .setwin s))) := by
    simp only [execSetwin, set]
  rw [setwinTransactions_eq, endOp_runFrames_beginOp] at ran
  exact ran

/-- Settles O19: ROT[0] decides the window (R101). -/
theorem setwinMapsAxesByRotation : Obligations.SetwinMapsAxesByRotation := by
  intro s x0 y0 x1 y1
  constructor
  · rintro (set | set)
    · rw [exec_setwin_of_rot set, axisMap_of_not_swapsAxes rfl]
    · rw [exec_setwin_of_rot set, axisMap_of_not_swapsAxes rfl]
  · rintro (set | set)
    · rw [exec_setwin_of_rot set, axisMap_of_swapsAxes rfl]
    · rw [exec_setwin_of_rot set, axisMap_of_swapsAxes rfl]

/-- Settles O21: the branch of R100 with no rotation. -/
theorem setwinBeforeSetrotFaults : Obligations.SetwinBeforeSetrotFaults := by
  intro s x0 y0 x1 y1 unset
  have ran : execSetwin x0 y0 x1 y1 s = .next (endOp (raiseFault .rotUnset (beginOp .setwin s))) := by
    simp only [execSetwin, unset]
  exact ran

theorem exec_setrot_eq (rIn : Word18) (s : State) :
    exec (.setrot rIn) s =
      .next { Expect.afterFrames [Expect.cmd 0x36] (datByte (madctlByte (clampRotation rIn))) s with
        rot := some (clampRotation rIn) } := by
  have frames := endOp_runFrames_beginOp .setrot [Expect.cmd 0x36] (datByte (madctlByte (clampRotation rIn))) s
  exact congrArg (fun t => Host.Outcome.next (setRot (clampRotation rIn) t)) frames

/-- Settles O22: the clamp and the orientation byte in numbers. -/
theorem setrotSendsByteAndSetsRot : Obligations.SetrotSendsByteAndSetsRot := by
  intro s rIn
  have clamped : (if rIn.toNat > 3 then 0 else rIn.toNat) < 2 ^ 2 := by split <;> omega
  rw [exec_setrot_eq, datByte_eq, madctlByte_toNat, clampRotation_eq, BitVec.toNat_ofNat, Nat.mod_eq_of_lt clamped]

theorem refuseReservedOp_eq (rest : BitVec 72) (op : BitVec 3) (s : State) :
    refuseReservedOp rest op s = Expect.afterRefusal .reservedOp (8 * rest.toNat + op.toNat) s := by
  have word : (rest ++ op : Request) = BitVec.ofNat 75 (8 * rest.toNat + op.toNat) := by
    have := rest.isLt; have := op.isLt
    apply BitVec.eq_of_toNat_eq
    rw [reservedWord_toNat, BitVec.toNat_ofNat]
    omega
  rw [refuseReservedOp, word]
  rfl

/-- Settles O24: the recorded word is the op code below its other bits. -/
theorem reservedOpsAreMarkedRefused : Obligations.ReservedOpsAreMarkedRefused := by
  intro s rest
  refine ⟨?_, ?_, ?_, ?_⟩
  · exact congrArg Host.Outcome.next (refuseReservedOp_eq rest 0 s)
  · exact congrArg Host.Outcome.next (refuseReservedOp_eq rest 5 s)
  · exact congrArg Host.Outcome.next (refuseReservedOp_eq rest 6 s)
  · exact congrArg Host.Outcome.next (refuseReservedOp_eq rest 7 s)

/-- Settles O26: the word is the code, zero-extended to 18 bits. -/
theorem commandWordHasOnlyTheCode : Obligations.CommandWordHasOnlyTheCode := by
  intro s c
  refine ⟨_, c.setWidth 18, congrArg Host.Outcome.next (endOp_frame_beginOp .wrcmd (cmdWord c) s), ?_, rfl, ?_, ?_⟩
  · exact congrArg (· ++ [cmdWord c]) (List.append_nil s.trace)
  · intro j low
    rw [BitVec.getLsbD_setWidth, decide_eq_true (by omega : j < 18), Bool.true_and]
  · intro j high
    rw [BitVec.getLsbD_setWidth, BitVec.getLsbD_of_ge c j high, Bool.and_false]

/-! ### Instructions that send frames, and instructions that send none -/

/-- In every state with the rotation `rot`, the instruction sends the frames `ts` and then `last`, and leaves `r` in S.ROT. -/
def Sends (i : Instr) (rot : Option Rotation) (ts : List Transaction) (last : Transaction) (r : Option Rotation) : Prop :=
  ∀ s : State, s.rot = rot → exec i s = .next { Expect.afterFrames ts last s with rot := r }

theorem sends_of_keeps_rot {i : Instr} {rot : Option Rotation} {ts : List Transaction} {last : Transaction}
    (h : ∀ s : State, s.rot = rot → exec i s = .next (Expect.afterFrames ts last s)) : Sends i rot ts last rot := by
  intro s same
  rw [h s same, ← same]
  rfl

theorem sends_of_commandCode {i : Instr} {c : Byte} (h : i.commandCode = some c) (rot : Option Rotation) :
    Sends i rot [] (Expect.cmd c.toNat) rot :=
  sends_of_keeps_rot fun s _ => exec_of_commandCode h s

/-- An instruction that starts an operation sends the operation's number of frames; which frames, and what it leaves in S.ROT,
depends on S.ROT alone, and no operation but SETROT writes S.ROT. -/
theorem sends_of_startsOp {i : Instr} {s : State} {op : Op} (h : startsOp i s = some op) :
    ∃ ts last r, ts.length + 1 = frameCount op ∧ (op ≠ .setrot → r = s.rot) ∧ Sends i s.rot ts last r := by
  cases i with
  | wrcmd c =>
    cases h
    exact ⟨_, _, _, rfl, fun _ => rfl, sends_of_keeps_rot fun s' _ => wrcmdSendsOneCommand s' c⟩
  | wrdat w =>
    cases h
    exact ⟨_, _, _, rfl, fun _ => rfl, sends_of_keeps_rot fun s' _ => exec_wrdat w s'⟩
  | setwin x0 y0 x1 y1 =>
    cases set : s.rot with
    | none => simp [startsOp, set] at h
    | some r =>
      simp only [startsOp, set, Option.some.injEq] at h
      subst h
      exact ⟨_, _, _, rfl, fun _ => rfl, sends_of_keeps_rot fun s' same => exec_setwin_of_rot same x0 y0 x1 y1⟩
  | setrot rIn =>
    cases h
    exact ⟨_, _, _, rfl, fun other => absurd rfl other, fun s' _ => exec_setrot_eq rIn s'⟩
  | reservedOp0 | reservedOp5 | reservedOp6 | reservedOp7 | busWrite => cases h
  | _ =>
    cases h
    exact ⟨_, _, _, rfl, fun _ => rfl, sends_of_commandCode rfl s.rot⟩

/-- An instruction that starts no operation is BusWrite, a refusal, or a SETWIN before the first SETROT. -/
theorem exec_of_startsOp_none {i : Instr} {s : State} (h : startsOp i s = none) :
    (∃ w, i = .busWrite w) ∨
    (∃ w : Request, encode i = some w ∧ ∀ s', exec i s' = .next (raiseRefused .reservedOp w s')) ∨
    (∀ s' : State, s'.rot = s.rot →
      exec i s' = .next { s' with fault := s'.fault ++ [.rotUnset], phase := .idle, pinStep := 0 }) := by
  cases i with
  | busWrite w => exact .inl ⟨w, rfl⟩
  | reservedOp0 | reservedOp5 | reservedOp6 | reservedOp7 => exact .inr (.inl ⟨_, rfl, fun _ => rfl⟩)
  | setwin x0 y0 x1 y1 =>
    cases unset : s.rot with
    | none => exact .inr (.inr fun s' same => setwinBeforeSetrotFaults s' x0 y0 x1 y1 same)
    | some r => simp [startsOp, unset] at h
  | _ => cases h

/-- Settles O31: an instruction with frames answers, and so does each of the three without. -/
theorem noInstructionStops : Obligations.NoInstructionStops := by
  intro i s
  cases starts : startsOp i s with
  | some op =>
    obtain ⟨ts, last, r, -, -, sends⟩ := sends_of_startsOp starts
    exact ⟨_, sends s rfl⟩
  | none =>
    obtain ⟨w, rfl⟩ | ⟨w, -, refused⟩ | faulted := exec_of_startsOp_none starts
    · exact ⟨_, rfl⟩
    · exact ⟨_, refused s⟩
    · exact ⟨_, faulted s rfl⟩

theorem flatMap_frameEvents_length (cfg : Config) (ts : List Transaction) :
    (ts.flatMap (frameEvents cfg)).length = 7 * ts.length := by
  induction ts with
  | nil => rfl
  | cons t ts ih =>
    have seven : (frameEvents cfg t).length = 7 := rfl
    rw [List.flatMap_cons, List.length_append, ih, seven, List.length_cons]
    omega

theorem afterFrames_pins_length (ts : List Transaction) (last : Transaction) (s : State) :
    (Expect.afterFrames ts last s).pins.length = s.pins.length + 7 * (ts.length + 1) := by
  rw [Expect.afterFrames, List.length_append, flatMap_frameEvents_length, List.length_append, List.length_singleton]

theorem afterFrames_trace_length (ts : List Transaction) (last : Transaction) (s : State) :
    (Expect.afterFrames ts last s).trace.length = s.trace.length + (ts.length + 1) := by
  rw [Expect.afterFrames, List.length_append, List.length_append, List.length_singleton, Nat.add_assoc]

/-- One transaction and seven pin events a frame (R73, R90). -/
theorem lengths_of_startsOp {i : Instr} {s t : State} {op : Op} (starts : startsOp i s = some op) (ran : exec i s = .next t) :
    t.trace.length = s.trace.length + frameCount op ∧ t.pins.length = s.pins.length + 7 * frameCount op := by
  obtain ⟨ts, last, r, count, -, sends⟩ := sends_of_startsOp starts
  cases (sends s rfl).symm.trans ran
  exact ⟨count ▸ afterFrames_trace_length ts last s, count ▸ afterFrames_pins_length ts last s⟩

/-- Settles O30: an instruction with frames by its operation's frame count, the others by what each leaves. -/
theorem operationLengths : Obligations.OperationLengths := by
  intro s t i ran
  cases i with
  | setwin x0 y0 x1 y1 =>
    refine ⟨fun set => ?_, fun unset => ?_⟩
    · obtain ⟨r, set⟩ := Option.isSome_iff_exists.mp set
      exact lengths_of_startsOp (op := .setwin) (by simp [startsOp, set]) ran
    · cases (setwinBeforeSetrotFaults s x0 y0 x1 y1 unset).symm.trans ran
      exact ⟨rfl, rfl⟩
  | setrot => exact lengths_of_startsOp (op := .setrot) rfl ran
  | reservedOp0 | reservedOp5 | reservedOp6 | reservedOp7 => cases ran; exact ⟨rfl, rfl⟩
  | busWrite w =>
    cases (busWriteClearsSetsAndStrobes s w).symm.trans ran
    exact ⟨rfl, List.length_append⟩
  | wrdat => exact lengths_of_startsOp (op := .wrdat) rfl ran
  | _ => exact lengths_of_startsOp (op := .wrcmd) rfl ran

/-- Settles O40: the frames an instruction sends do not depend on the board, and a frame has seven pin events on each. -/
theorem boardLevelsDoNotShowInTheTrace : Obligations.BoardLevelsDoNotShowInTheTrace := by
  intro s t u i cs dc ran ran'
  cases starts : startsOp i s with
  | some op =>
    obtain ⟨ts, last, r, -, -, sends⟩ := sends_of_startsOp starts
    cases (sends s rfl).symm.trans ran
    cases (sends { s with cfg := { s.cfg with csActive := cs, dcxCmd := dc } } rfl).symm.trans ran'
    refine ⟨rfl, rfl, rfl, rfl, rfl, rfl, rfl, ?_⟩
    exact (afterFrames_pins_length ts last _).trans (afterFrames_pins_length ts last s).symm
  | none =>
    obtain ⟨w, rfl⟩ | ⟨w, -, refused⟩ | faulted := exec_of_startsOp_none starts
    · cases (busWriteClearsSetsAndStrobes _ w).symm.trans ran
      cases (busWriteClearsSetsAndStrobes _ w).symm.trans ran'
      exact ⟨rfl, rfl, rfl, rfl, rfl, rfl, rfl, rfl⟩
    · cases (refused _).symm.trans ran
      cases (refused _).symm.trans ran'
      exact ⟨rfl, rfl, rfl, rfl, rfl, rfl, rfl, rfl⟩
    · cases (faulted s rfl).symm.trans ran
      cases (faulted { s with cfg := { s.cfg with csActive := cs, dcxCmd := dc } } rfl).symm.trans ran'
      exact ⟨rfl, rfl, rfl, rfl, rfl, rfl, rfl, rfl⟩

/-- Settles O41: the first frame drives DCX and D, whatever they were. -/
theorem oldLineLevelsDoNotMatter : Obligations.OldLineLevelsDoNotMatter := by
  intro s i op dcx d starts
  obtain ⟨ts, last, r, -, -, sends⟩ := sends_of_startsOp starts
  exact (sends { s with dcx := dcx, d := d } rfl).trans (sends s rfl).symm

end Sys2Proof.Machine
end

