-- ==== Sys2Proof/Proofs/Moves.lean ====
section
/-! SUPPORT. Proofs/Moves.lean: everything a step that answers can do to the state, said once; the records that only grow. -/

namespace Sys2Proof.Machine

/-! ### The acceptance of a request -/

theorem acceptWhole_of_ok {s : State} {i : Instr} (h : decode s.reqIn = .ok i) : acceptWhole s = exec i (latchRequest s) := by
  simp only [acceptWhole, h]

theorem acceptWhole_of_error {s : State} (h : decode s.reqIn = .error .reservedBits) :
    acceptWhole s = .next (raiseRefused .reservedBits s.reqIn (latchRequest s)) := by
  simp only [acceptWhole, h]

theorem acceptStart_of_startsOp {s : State} {i : Instr} {op : Op} (h : decode s.reqIn = .ok i) (starts : startsOp i s = some op) :
    acceptStart s = .next (beginOp op (latchRequest s)) := by
  simp only [acceptStart, h, starts]

theorem acceptStart_of_startsOp_none {s : State} {i : Instr} (h : decode s.reqIn = .ok i) (starts : startsOp i s = none) :
    acceptStart s = exec i (latchRequest s) := by
  simp only [acceptStart, h, starts]

theorem acceptStart_of_error {s : State} (h : decode s.reqIn = .error .reservedBits) :
    acceptStart s = .next (raiseRefused .reservedBits s.reqIn (latchRequest s)) := by
  simp only [acceptStart, h]

theorem rot_isSome_of_startsOp_setwin {i : Instr} {s : State} (h : startsOp i s = some .setwin) : s.rot.isSome = true := by
  cases i with
  | setwin =>
    cases set : s.rot with
    | none => simp [startsOp, set] at h
    | some r => rfl
  | _ => cases h

/-! ### What a move can be -/

/-- An event that the client records is its own (R129). -/
def ClientEvent.IsOwn (e : ClientEvent) : Prop := e = .resetPulse ∨ ∃ t, e = .wait t

/-- What an idle block makes of an accepted request word that it runs whole. -/
inductive Accepted (s : State) : State → Prop where
  /-- Its operation, whole (R66, R67). -/
  | operation (ts : List Transaction) (last : Transaction) (rot : Option Rotation) :
      Accepted s { Expect.afterFrames ts last (latchRequest s) with rot := rot }
  /-- A refusal (R67, R141). -/
  | refusal (reason : RefusalReason) : Accepted s (raiseRefused reason s.reqIn (latchRequest s))
  /-- A SETWIN before the first SETROT (R100, R142). -/
  | rotUnset : Accepted s { latchRequest s with fault := s.fault ++ [.rotUnset], phase := .idle, pinStep := 0 }

/-- Everything a step that answers can make of a state, whose reset input has been counted down: one constructor a rule. -/
inductive Move (s : State) : State → Prop where
  /-- A block reset that is due (R160). -/
  | reset : Move s (platformReset s)
  /-- The next pin write of a busy block, or the end of its operation (R21, R90). -/
  | pinWrite {op : Op} {n : Nat} (busy : s.phase = .busy op n) : Move s (tick s)
  /-- A request accepted and run whole (R66). -/
  | accepted {t : State} (idle : s.phase = .idle) (valid : s.reqValid = true) (ran : Accepted s t) : Move s t
  /-- The start of an accepted request's operation (R21, R66). -/
  | start (op : Op) (rotated : op = .setwin → s.rot.isSome = true) (idle : s.phase = .idle) (valid : s.reqValid = true) :
      Move s (beginOp op (latchRequest s))
  /-- A move of the client that records no event (R66, R120 to R136). -/
  | client (c : Client) (v : Bool) (w : Request) (draws : Nat) (events : c.events = s.client.events)
      (idle : s.phase = .idle) (empty : s.reqValid = false) :
      Move s { s with client := c, reqValid := v, reqIn := w, draws := draws }
  /-- An event of the client (R129). -/
  | event (rest : List ClientAction) (e : ClientEvent) (own : ClientEvent.IsOwn e) (idle : s.phase = .idle)
      (empty : s.reqValid = false) : Move s (Expect.afterClientEvent e rest s)

theorem Accepted.of_exec {s t : State} {i : Instr} (encoded : encode i = some s.reqIn)
    (ran : exec i (latchRequest s) = .next t) : Accepted s t := by
  cases starts : startsOp i (latchRequest s) with
  | some op =>
    obtain ⟨ts, last, r, -, -, sends⟩ := sends_of_startsOp starts
    cases (sends _ rfl).symm.trans ran
    exact .operation ts last r
  | none =>
    obtain ⟨w, rfl⟩ | ⟨w, isWord, refused⟩ | faulted := exec_of_startsOp_none starts
    · cases encoded
    · cases isWord.symm.trans encoded
      cases (refused _).symm.trans ran
      exact .refusal .reservedOp
    · cases (faulted _ rfl).symm.trans ran
      exact .rotUnset

theorem Accepted.of_acceptWhole {s t : State} (accepted : acceptWhole s = .next t) : Accepted s t := by
  cases decoded : decode s.reqIn with
  | ok i => exact .of_exec (encode_of_decode decoded) ((acceptWhole_of_ok decoded).symm.trans accepted)
  | error e =>
    cases (acceptWhole_of_error decoded).symm.trans accepted
    exact .refusal .reservedBits

/-- An accepted request is latched, the port let go of, and the block idle after it (R66). -/
theorem Accepted.latched {s t : State} (ran : Accepted s t) (idle : s.phase = .idle) :
    t.req = s.reqIn ∧ t.reqValid = false ∧ t.phase = .idle := by
  cases ran with
  | operation | rotUnset => exact ⟨rfl, rfl, rfl⟩
  | refusal => exact ⟨rfl, rfl, idle⟩

theorem Move.of_acceptStart {s t : State} (idle : s.phase = .idle) (valid : s.reqValid = true)
    (accepted : acceptStart s = .next t) : Move s t := by
  cases decoded : decode s.reqIn with
  | ok i =>
    cases starts : startsOp i s with
    | some op =>
      cases (acceptStart_of_startsOp decoded starts).symm.trans accepted
      exact .start op (fun isSetwin => rot_isSome_of_startsOp_setwin (isSetwin ▸ starts)) idle valid
    | none =>
      have ran := (acceptStart_of_startsOp_none decoded starts).symm.trans accepted
      exact .accepted idle valid (.of_exec (encode_of_decode decoded) ran)
  | error e =>
    cases (acceptStart_of_error decoded).symm.trans accepted
    exact .accepted idle valid (.refusal .reservedBits)

theorem Move.of_makeCall {s t : State} {c : Call} {rest : List ClientAction} (idle : s.phase = .idle)
    (empty : s.reqValid = false) (moved : makeCall c rest s = .next t) : Move s t := by
  obtain ⟨p, -, call⟩ | ⟨p, l, -, call⟩ | ⟨-, call⟩ | ⟨-, call⟩ := makeCall_cases c rest s
  · rw [afterSampling_eq] at call
    cases call.symm.trans moved
    exact .client _ s.reqValid s.reqIn _ rfl idle empty
  · cases call.symm.trans moved
    exact .client _ s.reqValid s.reqIn s.draws rfl idle empty
  · cases call.symm.trans moved
  · cases call.symm.trans moved

theorem Move.of_clientMove {s t : State} (idle : s.phase = .idle) (empty : s.reqValid = false)
    (moved : clientMove s = .next t) : Move s t := by
  unfold clientMove at moved
  split_ifs at moved
  split at moved
  case h_1 => cases moved; exact .client s.client s.reqValid s.reqIn s.draws rfl idle empty
  case h_2 w rest _ => cases moved; exact .client _ true w s.draws rfl idle empty
  case h_3 rest _ => cases moved; exact .event rest _ (.inl rfl) idle empty
  case h_4 t rest _ => cases moved; exact .event rest _ (.inr ⟨t, rfl⟩) idle empty
  case h_5 => cases moved; exact .client _ s.reqValid s.reqIn s.draws rfl idle empty
  case h_6 => exact .of_makeCall idle empty moved

/-- A step that answers makes one move. -/
theorem move_of_step {s t : State} (stepped : step s = .next t) : ∃ rs, Move { s with resets := rs } t := by
  obtain ⟨rest, -, move⟩ | ⟨rs, -, ⟨op, n, busy, move⟩ | ⟨idle, valid, move⟩ | ⟨idle, empty, move⟩⟩ := step_cases s
  · cases move.symm.trans stepped
    exact ⟨rest, .reset⟩
  · cases move.symm.trans stepped
    exact ⟨rs, .pinWrite (s := { s with resets := rs }) busy⟩
  · have accepted := move.symm.trans stepped
    split_ifs at accepted
    · exact ⟨rs, .accepted (s := { s with resets := rs }) idle valid (.of_acceptWhole accepted)⟩
    · exact ⟨rs, .of_acceptStart (s := { s with resets := rs }) idle valid accepted⟩
  · exact ⟨rs, .of_clientMove (s := { s with resets := rs }) idle empty (move.symm.trans stepped)⟩

/-! ### One move of a busy block -/

/-- The number of an operation's transactions (R73). -/
theorem opTransactions_length {s : State} {op : Op} (rotated : op = .setwin → s.rot.isSome = true) :
    (opTransactions s op).length = frameCount op := by
  cases op with
  | setwin =>
    obtain ⟨r, set⟩ := Option.isSome_iff_exists.mp (rotated rfl)
    simp [opTransactions, set, setwinTransactions_eq, Expect.windowFrames, frameCount]
  | _ => rfl

/-- A busy block with all its frames done ends its operation. -/
theorem tick_of_done {s : State} {op : Op} {n : Nat} (busy : s.phase = .busy op n) (done : (opTransactions s op)[n]? = none) :
    tick s = { finishOp op s with pinStep := 0 } := by
  simp only [tick, busy, done]

/-- One move of a busy block: a pin write of the frame in progress, or the end of the operation. -/
theorem tick_cases {s : State} {op : Op} {n : Nat} (busy : s.phase = .busy op n) :
    (∃ t, (opTransactions s op)[n]? = some t ∧ tick s = framePinWrite t s) ∨
    (opTransactions s op)[n]? = none ∧ tick s = { finishOp op s with pinStep := 0 } := by
  cases due : (opTransactions s op)[n]? with
  | some t => exact .inl ⟨t, rfl, tick_of_frame s op n t busy due⟩
  | none => exact .inr ⟨rfl, tick_of_done busy due⟩

/-- The end of an operation makes the block idle and touches nothing else but S.ROT. -/
theorem finishOp_eq (op : Op) (s : State) : ∃ r, finishOp op s = { s with phase := .idle, rot := r } := by
  cases op with
  | setrot => exact ⟨_, rfl⟩
  | _ => exact ⟨s.rot, rfl⟩

theorem countFrame_eq (s : State) : countFrame s = { s with phase := s.phase.addFrames 1 } := by
  ext1 <;> simp

/-- A pin write of a frame touches the pins, the trace, S.phase and the pin count alone. -/
theorem framePinWrite_frame (t : Transaction) (s : State) :
    ∃ p x c w d tr ps k, framePinWrite t s =
      { s with phase := p, csx := x, dcx := c, wrx := w, d := d, trace := tr, pins := ps, pinStep := k } := by
  simp only [framePinWrite, countFrame_eq]
  split <;> exact ⟨_, _, _, _, _, _, _, _, rfl⟩

/-! ### The records only grow -/

/-- The records of `t` extend those of `s`, on the same board (R30, R31, R142). -/
structure Grows (s t : State) : Prop where
  /-- S.trace. -/
  trace : s.trace <+: t.trace
  /-- S.pins. -/
  pins : s.pins <+: t.pins
  /-- S.fault. -/
  fault : s.fault <+: t.fault
  /-- The refusals. -/
  refusals : s.refusals <+: t.refusals
  /-- S.refused. -/
  refused : s.refused = true → t.refused = true
  /-- The parameters of R7. -/
  cfg : t.cfg = s.cfg

theorem framePinWrite_grows (t : Transaction) (s : State) : Grows s (framePinWrite t s) := by
  unfold framePinWrite
  split <;> exact ⟨by simp, by simp, by simp, by simp, by simp, by simp⟩

theorem tick_grows {s : State} {op : Op} {n : Nat} (busy : s.phase = .busy op n) : Grows s (tick s) := by
  obtain ⟨t, -, write⟩ | ⟨-, finish⟩ := tick_cases busy
  · exact write ▸ framePinWrite_grows t s
  · obtain ⟨r, eq⟩ := finishOp_eq op s
    rw [finish, eq]
    exact ⟨List.prefix_rfl, List.prefix_rfl, List.prefix_rfl, List.prefix_rfl, id, rfl⟩

theorem Accepted.grows {s t : State} (ran : Accepted s t) : Grows s t := by
  cases ran with
  | operation ts last =>
    exact ⟨(List.prefix_append ..).trans (List.prefix_append ..), List.prefix_append .., List.prefix_rfl, List.prefix_rfl, id, rfl⟩
  | refusal => exact ⟨List.prefix_rfl, List.prefix_rfl, List.prefix_rfl, List.prefix_append .., fun _ => rfl, rfl⟩
  | rotUnset => exact ⟨List.prefix_rfl, List.prefix_rfl, List.prefix_append .., List.prefix_rfl, id, rfl⟩

theorem Move.grows {s t : State} (move : Move s t) : Grows s t := by
  cases move with
  | reset =>
    rw [platformReset_eq, blockReset_eq]
    exact ⟨List.prefix_rfl, List.prefix_append .., List.prefix_append .., List.prefix_rfl, id, rfl⟩
  | pinWrite busy => exact tick_grows busy
  | accepted _ _ ran => exact ran.grows
  | start | client | event => exact ⟨List.prefix_rfl, List.prefix_rfl, List.prefix_rfl, List.prefix_rfl, id, rfl⟩

/-- Settles O36: each move of a step extends the records. -/
theorem recordsOnlyGrow : Obligations.RecordsOnlyGrow := by
  intro s t stepped
  obtain ⟨rs, move⟩ := move_of_step stepped
  obtain ⟨trace, pins, fault, refusals, refused, cfg⟩ := move.grows
  exact ⟨trace, pins, fault, refusals, refused, cfg⟩

end Sys2Proof.Machine
end

