-- ==== Sys2Proof/Proofs/Invariant.lean ====
section
/-! SUPPORT. Proofs/Invariant.lean: the three parts of the block's invariant, each kept by every move: the sequencer's place (R29),
the lines inside a frame (R82), and the pin record against the trace (R42). -/

namespace Sys2Proof.Machine

/-! ### The sequencer's place -/

theorem sequencerOk_of_idle {s : State} (idle : s.phase = .idle) : s.SequencerOk ↔ s.IdlePins ∧ s.pinStep = 0 := by
  simp only [State.SequencerOk, idle]

theorem sequencerOk_of_busy {s : State} {op : Op} {n : Nat} (busy : s.phase = .busy op n) :
    s.SequencerOk ↔
      n ≤ frameCount op ∧ s.pinStep ≤ 6 ∧ (s.pinStep ≠ 0 → n < frameCount op) ∧
      s.csx = (if s.pinStep = 0 then !s.cfg.csActive else s.cfg.csActive) ∧ s.wrx = decide (s.pinStep ≠ 5) ∧
      (op = .setwin → s.rot.isSome = true) := by
  simp only [State.SequencerOk, busy]

theorem framePinWrite_sequencerOk {s : State} {op : Op} {n : Nat} {t : Transaction} (busy : s.phase = .busy op n)
    (due : (opTransactions s op)[n]? = some t) (ok : s.SequencerOk) : (framePinWrite t s).SequencerOk := by
  obtain ⟨-, place, -, csx, wrx, rotated⟩ := (sequencerOk_of_busy busy).mp ok
  have more : n < frameCount op := by
    rw [← opTransactions_length rotated]
    exact (List.getElem?_eq_some_iff.mp due).1
  obtain inside | last := Nat.lt_or_eq_of_le place
  · interval_cases step : s.pinStep
    all_goals
      simp only [framePinWrite, step]
      refine (sequencerOk_of_busy (op := op) (n := n) (by simp [busy])).mpr ⟨more.le, ?_⟩
      simp [more] at csx wrx ⊢
      simpa [csx, wrx] using rotated
  · rw [last] at wrx
    simp only [framePinWrite, last]
    refine (sequencerOk_of_busy (op := op) (n := n + 1) (by simp [busy])).mpr ⟨more, ?_⟩
    simpa using ⟨wrx, rotated⟩

theorem tick_sequencerOk {s : State} {op : Op} {n : Nat} (busy : s.phase = .busy op n) (ok : s.SequencerOk) :
    (tick s).SequencerOk := by
  obtain ⟨t, due, write⟩ | ⟨done, finish⟩ := tick_cases busy
  · exact write ▸ framePinWrite_sequencerOk busy due ok
  · obtain ⟨-, -, more, csx, wrx, rotated⟩ := (sequencerOk_of_busy busy).mp ok
    have all : frameCount op ≤ n := by
      rw [← opTransactions_length rotated]
      exact List.getElem?_eq_none_iff.mp done
    have between : s.pinStep = 0 := by
      by_contra inside
      exact absurd (more inside) (Nat.not_lt.mpr all)
    rw [if_pos between] at csx
    obtain ⟨r, eq⟩ := finishOp_eq op s
    rw [finish, eq]
    exact ⟨⟨csx, by simp [wrx, between]⟩, rfl⟩

theorem Accepted.sequencerOk {s t : State} (ran : Accepted s t) (idle : s.phase = .idle) (ok : s.SequencerOk) :
    t.SequencerOk := by
  cases ran with
  | operation => exact ⟨⟨rfl, rfl⟩, rfl⟩
  | refusal => exact ok
  | rotUnset => exact ⟨((sequencerOk_of_idle idle).mp ok).1, rfl⟩

/-- Every move keeps the sequencer's place (R21, R29). -/
theorem Move.sequencerOk {s t : State} (move : Move s t) (ok : s.SequencerOk) : t.SequencerOk := by
  cases move with
  | reset =>
    rw [platformReset_eq, blockReset_eq]
    exact ⟨⟨rfl, rfl⟩, rfl⟩
  | pinWrite busy => exact tick_sequencerOk busy ok
  | accepted idle _ ran => exact ran.sequencerOk idle ok
  | start op rotated idle =>
    obtain ⟨⟨csx, wrx⟩, -⟩ := (sequencerOk_of_idle idle).mp ok
    exact ⟨Nat.zero_le _, Nat.zero_le _, fun inside => absurd rfl inside, csx, wrx, rotated⟩
  | client | event => exact ok

/-- Settles O35: `Move.sequencerOk`, and what block reset and a framed write leave. -/
theorem idlePinsHold : Obligations.IdlePinsHold := by
  refine ⟨fun s t ok stepped => ?_, fun s => ?_, fun s t => ?_⟩
  · obtain ⟨rs, move⟩ := move_of_step stepped
    have kept := move.sequencerOk ok
    exact ⟨kept, fun idle => ((sequencerOk_of_idle idle).mp kept).1⟩
  · rw [blockReset_eq]
    exact ⟨rfl, rfl⟩
  · rw [frame_eq]
    exact ⟨rfl, rfl⟩

/-! ### The lines inside a frame -/

theorem frameLines_of_idle {s : State} (idle : s.phase = .idle) : s.FrameLines := by
  simp only [State.FrameLines, idle]

theorem frameLines_of_frame {s : State} {op : Op} {n : Nat} {t : Transaction} (busy : s.phase = .busy op n)
    (due : (opTransactions s op)[n]? = some t) :
    s.FrameLines ↔
      (2 ≤ s.pinStep → s.dcx = dcxLevel s.cfg t.kind) ∧ (s.pinStep = 3 → s.d = 0) ∧ (4 ≤ s.pinStep → s.d = t.word) := by
  simp only [State.FrameLines, busy, due]

theorem frameLines_of_pinStep_zero {s : State} (between : s.pinStep = 0) : s.FrameLines := by
  unfold State.FrameLines
  split
  · trivial
  · split <;> simp [between]

theorem framePinWrite_frameLines {s : State} {op : Op} {n : Nat} {t : Transaction} (busy : s.phase = .busy op n)
    (due : (opTransactions s op)[n]? = some t) (lines : s.FrameLines) : (framePinWrite t s).FrameLines := by
  obtain ⟨dcx, -, word⟩ := (frameLines_of_frame busy due).mp lines
  have dueAfter : ∀ s' : State, s'.req = s.req → s'.rot = s.rot → (opTransactions s' op)[n]? = some t :=
    fun s' req rot => (opTransactions_congr op s s' req rot).symm ▸ due
  unfold framePinWrite
  split
  case h_7 => exact frameLines_of_pinStep_zero rfl
  all_goals
    next step =>
    refine (frameLines_of_frame (op := op) (n := n) (t := t) (by simp [busy]) (dueAfter _ (by simp) (by simp))).mpr ?_
    simp [step, dcx, word]

/-! ### The pin record against the trace -/

/-- What a probe that has read the pin record right shows. -/
def State.shown (s : State) : Probe := { csx := s.csx, dcx := s.dcx, fell := !s.wrx, d := s.d, latched := s.trace }

/-- A controller that has read the record right so far, and reads the new events right, has read the whole record right. -/
theorem State.PinsMatchTrace.append {s t : State} {es : List PinEvent} (read : s.PinsMatchTrace) (cfg : t.cfg = s.cfg)
    (pins : t.pins = s.pins ++ es) (new : Probe.replay s.cfg s.shown es = t.shown) : t.PinsMatchTrace := by
  obtain ⟨dcx, d, old⟩ := read
  refine ⟨dcx, d, ?_⟩
  rw [cfg, pins, Probe.replay, List.foldl_append]
  exact (congrArg (Probe.replay s.cfg · es) old).trans new

@[simp] theorem kindAt_dcxLevel (cfg : Config) (k : Kind) : kindAt cfg (dcxLevel cfg k) = k := by
  cases k <;> simp [kindAt, dcxLevel]

/-- A frame's seven events latch its transaction, whatever the probe saw before (R42, R90). -/
theorem replay_frameEvents (cfg : Config) (p : Probe) (t : Transaction) :
    Probe.replay cfg p (frameEvents cfg t) =
      { csx := !cfg.csActive, dcx := dcxLevel cfg t.kind, fell := false, d := t.word, latched := p.latched ++ [t] } := by
  simp [Probe.replay, frameEvents, Probe.observe]

theorem replay_append (cfg : Config) (p : Probe) (es es' : List PinEvent) :
    Probe.replay cfg p (es ++ es') = Probe.replay cfg (Probe.replay cfg p es) es' :=
  List.foldl_append

/-- A run of frames latches its transactions in order and shows its last frame (R53). -/
theorem replay_frames (cfg : Config) (p : Probe) (ts : List Transaction) (last : Transaction) :
    Probe.replay cfg p ((ts ++ [last]).flatMap (frameEvents cfg)) =
      { csx := !cfg.csActive, dcx := dcxLevel cfg last.kind, fell := false, d := last.word,
        latched := p.latched ++ ts ++ [last] } := by
  induction ts generalizing p with
  | nil => simp [replay_frameEvents]
  | cons t ts ih => rw [List.cons_append, List.flatMap_cons, replay_append, ih, replay_frameEvents]; simp

/-- Block reset's two events latch nothing: chip-select is deasserted before the strobe is released (R160). -/
theorem replay_resetEvents (cfg : Config) (p : Probe) :
    Probe.replay cfg p [.csx (!cfg.csActive), .wrx true] = { p with csx := !cfg.csActive, fell := false } := by
  simp [Probe.replay, Probe.observe]

theorem framePinWrite_pinsMatchTrace {s : State} {op : Op} {n : Nat} {t : Transaction} (busy : s.phase = .busy op n)
    (due : (opTransactions s op)[n]? = some t) (ok : s.SequencerOk) (lines : s.FrameLines) (read : s.PinsMatchTrace) :
    (framePinWrite t s).PinsMatchTrace := by
  obtain ⟨-, -, -, csx, wrx, -⟩ := (sequencerOk_of_busy busy).mp ok
  obtain ⟨dcx, -, word⟩ := (frameLines_of_frame busy due).mp lines
  unfold framePinWrite
  split
  case h_6 step =>
    refine read.append (es := [.wrx true]) rfl rfl ?_
    simp [Probe.replay, Probe.observe, State.shown, step, csx, wrx, dcx, word]
  case h_1 => exact read.append (es := [.csx _]) rfl rfl rfl
  case h_2 => exact read.append (es := [.dcx _]) rfl rfl rfl
  case h_3 => exact read.append (es := [.d _]) rfl rfl rfl
  case h_4 => exact read.append (es := [.d _]) rfl rfl rfl
  case h_5 => exact read.append (es := [.wrx false]) rfl rfl rfl
  case h_7 =>
    rw [countFrame_eq]
    exact read.append (es := [.csx _]) rfl rfl rfl

theorem tick_inv {s : State} {op : Op} {n : Nat} (busy : s.phase = .busy op n) (inv : s.Inv) : (tick s).Inv := by
  obtain ⟨ok, lines, read⟩ := inv
  refine ⟨tick_sequencerOk busy ok, ?_⟩
  obtain ⟨t, due, write⟩ | ⟨-, finish⟩ := tick_cases busy
  · rw [write]
    exact ⟨framePinWrite_frameLines busy due lines, framePinWrite_pinsMatchTrace busy due ok lines read⟩
  · obtain ⟨r, eq⟩ := finishOp_eq op s
    rw [finish, eq]
    exact ⟨frameLines_of_idle rfl, read⟩

theorem Accepted.pinsMatchTrace {s t : State} (ran : Accepted s t) (read : s.PinsMatchTrace) : t.PinsMatchTrace := by
  cases ran with
  | operation ts last =>
    refine read.append rfl rfl ((replay_frames s.cfg s.shown ts last).trans ?_)
    rfl
  | refusal | rotUnset => exact read

/-- Every move keeps the invariant of the block. -/
theorem Move.inv {s t : State} (move : Move s t) (inv : s.Inv) : t.Inv := by
  obtain ⟨ok, lines, read⟩ := inv
  refine ⟨move.sequencerOk ok, ?_⟩
  cases move with
  | reset =>
    rw [platformReset_eq, blockReset_eq]
    exact ⟨frameLines_of_idle rfl, read.append rfl rfl (replay_resetEvents s.cfg s.shown)⟩
  | pinWrite busy => exact (tick_inv busy ⟨ok, lines, read⟩).2
  | accepted idle _ ran =>
    obtain ⟨-, -, idleAfter⟩ := ran.latched idle
    exact ⟨frameLines_of_idle idleAfter, ran.pinsMatchTrace read⟩
  | start => exact ⟨frameLines_of_pinStep_zero rfl, read⟩
  | client _ _ _ _ _ idle | event _ _ _ idle => exact ⟨frameLines_of_idle idle, read⟩

/-- Settles O33: `Move.inv`; the count to the next reset, which the step takes down first, is in no part of the invariant. -/
theorem pinRecordLatchesTheTrace : Obligations.PinRecordLatchesTheTrace := by
  intro s t inv stepped
  obtain ⟨rs, move⟩ := move_of_step stepped
  exact move.inv inv

/-- Settles O34: the block is idle with idle pins, the reset's two events latch nothing, and the client has no marks. -/
theorem invariantAfterPowerOn : Obligations.InvariantAfterPowerOn := by
  have powerOn : ∀ cfg dcx d, (State.afterPowerOn cfg dcx d).Inv ∧ (State.afterPowerOn cfg dcx d).MarksInTrace :=
    fun cfg dcx d => ⟨⟨⟨⟨rfl, rfl⟩, rfl⟩, frameLines_of_idle rfl,
      ⟨dcx, d, replay_resetEvents cfg (Probe.start cfg dcx d)⟩⟩, nofun⟩
  exact ⟨powerOn, powerOn _ _ _⟩

/-- Settles O38: the strobe is low at the fifth pin write of a frame alone, and the sixth raises it. -/
theorem linesStableWhileStrobeLow : Obligations.LinesStableWhileStrobeLow := by
  intro s op n inv busy low
  obtain ⟨ok, lines, -⟩ := inv
  obtain ⟨-, -, more, csx, wrx, rotated⟩ := (sequencerOk_of_busy busy).mp ok
  have step : s.pinStep = 5 := by simpa [low] using wrx
  have inFrame : n < (opTransactions s op).length := by
    rw [opTransactions_length rotated]
    exact more (by omega)
  obtain ⟨t, due⟩ : ∃ t, (opTransactions s op)[n]? = some t := ⟨_, List.getElem?_eq_getElem inFrame⟩
  obtain ⟨-, -, word⟩ := (frameLines_of_frame busy due).mp lines
  have write : tick s = { emit t (drive (.wrx true) s) with pinStep := 6 } := by
    simp only [tick_of_frame s op n t busy due, framePinWrite, step]
  rw [write]
  exact ⟨t, due, word (by omega), by simpa [step] using csx, rfl, rfl, rfl, rfl, rfl⟩

end Sys2Proof.Machine
end

