-- ==== Sys2Proof/Proofs/RequestPort.lean ====
section
/-! SUPPORT. Proofs/RequestPort.lean: the handshake of R66, the refusals of R67 and R141, and the priority of R144. -/

namespace Sys2Proof.Machine

/-! ### The step of an idle block with a request -/

theorem step_of_decode {s : State} {i : Instr} (ready : s.Accepting) (h : decode s.reqIn = .ok i) :
    step s = exec i (latchRequest s) :=
  (step_of_accepting s ready).trans (acceptWhole_of_ok h)

/-- Settles O7: `step_of_decode`. -/
theorem stepRunsDecodedInstruction : Obligations.StepRunsDecodedInstruction := fun _ _ => step_of_decode

/-- A step with a reset to come is one move (R160). -/
theorem step_of_countdown {s : State} {k : Nat} {rest : List Nat} (h : s.resets = (k + 1) :: rest) :
    step s = advance true { s with resets := k :: rest } := by
  simp only [step, h]

theorem advance_of_busy {s : State} {op : Op} {n : Nat} (busy : s.phase = .busy op n) (paced : Bool) :
    advance paced s = .next (tick s) := by
  simp only [advance, busy]

theorem advance_of_request {s : State} (idle : s.phase = .idle) (valid : s.reqValid = true) :
    advance true s = acceptStart s := by
  simp only [advance, idle, valid, if_true]

/-- Settles O8: the one move, by S.phase and by whether the instruction starts an operation. -/
theorem stepBeforeADueReset : Obligations.StepBeforeADueReset := by
  intro s k rest count
  refine ⟨fun op n busy => ?_, fun i op idle valid decoded starts => ?_, fun i idle valid decoded starts => ?_⟩
  · exact (step_of_countdown count).trans (advance_of_busy (s := { s with resets := k :: rest }) busy true)
  · have accepted := acceptStart_of_startsOp (s := { s with resets := k :: rest }) decoded starts
    exact (step_of_countdown count).trans ((advance_of_request (s := { s with resets := k :: rest }) idle valid).trans accepted)
  · have accepted := acceptStart_of_startsOp_none (s := { s with resets := k :: rest }) decoded starts
    exact (step_of_countdown count).trans ((advance_of_request (s := { s with resets := k :: rest }) idle valid).trans accepted)

/-! ### The words of the opcode table, and every command code -/

theorem decode_wrcmdRequest_of_commandCode {i : Instr} {c : Byte} (h : i.commandCode = some c) :
    decode (wrcmdRequest c) = .ok i := by
  rw [decode_wrcmdRequest, spell_wrcmd, (commandOf_eq_some c i).mpr h, Option.getD_some]

/-- The request that puts a table word into effect decodes to what the table word does (R70, R71). -/
theorem decode_tableRequest {nbits w : Nat} {i : Instr} (h : decodeTableWord nbits w = some i) :
    decode (tableRequest nbits w) = .ok i := by
  unfold decodeTableWord at h
  unfold tableRequest
  split_ifs at h ⊢
  · obtain ⟨-, c, listed, word⟩ := (decodeBusCommand_eq_some _ i).mp h
    rw [show BitVec.ofNat 18 w = c.setWidth 18 from word]
    exact decode_wrcmdRequest_of_commandCode listed
  · split at h
    · next decoded => cases h; exact decoded
    · cases h

/-- Settles O9: the placed word decodes to `i` by `decode_tableRequest`, and so is its encoding. -/
theorem fetchedTableWordRuns : Obligations.FetchedTableWordRuns := by
  intro s nbits w i row
  have decoded := decode_tableRequest row
  have placed : (s.withFetchWord nbits w).Accepting := ⟨rfl, rfl, rfl⟩
  exact ⟨_, encode_of_decode decoded, step_of_decode placed decoded⟩

/-- The two names of a listed code run the same (R70). -/
theorem exec_spell (i : Instr) (s : State) : exec i.spell s = exec i s := by
  cases i with
  | wrcmd c =>
    rw [spell_wrcmd]
    cases listed : commandOf c with
    | none => rfl
    | some j => exact (exec_of_commandCode ((commandOf_eq_some c j).mp listed) s).trans (wrcmdSendsOneCommand s c).symm
  | _ => rfl

theorem wrcmdRequest_eq (c : Byte) : wrcmdRequest c = BitVec.ofNat 75 (1 + 8 * c.toNat) := by
  have := c.isLt
  apply BitVec.eq_of_toNat_eq
  rw [wrcmdRequest, packRequest_toNat]
  simp
  omega

/-- Settles O10: the request decodes to the code's spelling, which runs as WRCMD does. -/
theorem everyCommandCodeIsSent : Obligations.EveryCommandCodeIsSent := by
  intro s c accepting word
  have decoded : decode s.reqIn = .ok (Instr.wrcmd c).spell := by rw [word, ← wrcmdRequest_eq, decode_wrcmdRequest]
  rw [step_of_decode accepting decoded, exec_spell]
  exact wrcmdSendsOneCommand _ c

/-! ### Refused requests -/

theorem raiseRefused_eq (reason : RefusalReason) (w : Request) (s : State) :
    raiseRefused reason w s = Expect.afterRefusal reason w.toNat s := by
  rw [Expect.afterRefusal, BitVec.ofNat_toNat, BitVec.setWidth_eq]
  rfl

/-- A word with a reserved op code decodes to an instruction that marks the word refused (R68, R141). -/
theorem exec_of_reservedOp {w : Request} (h : w.toNat % 8 = 0 ∨ w.toNat % 8 = 5 ∨ w.toNat % 8 = 6 ∨ w.toNat % 8 = 7) :
    ∃ i, decode w = .ok i ∧ ∀ s, exec i s = .next (raiseRefused .reservedOp w s) := by
  have refuses : ∀ {v : Request}, w = v → ∀ s : State,
      (.next (raiseRefused .reservedOp v s) : Host.Outcome State Fault Refusal) = .next (raiseRefused .reservedOp w s) := by
    rintro _ rfl s
    rfl
  obtain ⟨-, op0, op5, op6, op7, -⟩ := decodeByOpAndReservedBits w
  obtain op | op | op | op := h
  · exact ⟨_, op0 op, refuses (eq_reservedWord (op := 0) op)⟩
  · exact ⟨_, op5 op, refuses (eq_reservedWord (op := 5) op)⟩
  · exact ⟨_, op6 op, refuses (eq_reservedWord (op := 6) op)⟩
  · exact ⟨_, op7 op, refuses (eq_reservedWord (op := 7) op)⟩

theorem step_of_reservedOp {s : State} (accepting : s.Accepting)
    (h : s.reqIn.toNat % 8 = 0 ∨ s.reqIn.toNat % 8 = 5 ∨ s.reqIn.toNat % 8 = 6 ∨ s.reqIn.toNat % 8 = 7) :
    step s = .next (raiseRefused .reservedOp s.reqIn (latchRequest s)) := by
  obtain ⟨i, decoded, refused⟩ := exec_of_reservedOp h
  rw [step_of_decode accepting decoded, refused]

theorem step_of_reservedBits {s : State} (accepting : s.Accepting) (h : Expect.reservedBit s.reqIn.toNat) :
    step s = .next (raiseRefused .reservedBits s.reqIn (latchRequest s)) := by
  rw [step_of_accepting s accepting, acceptWhole_of_error ((decode_eq_reservedBits _).mpr h)]

/-- Settles O11: both kinds of refused word, and `Move.grows` for the mark. -/
theorem refusedRequestIsDropped : Obligations.RefusedRequestIsDropped := by
  refine ⟨fun s accepting op => ?_, fun s accepting set => ?_, fun s t stepped => ?_⟩
  · rw [step_of_reservedOp accepting op, raiseRefused_eq]
    rfl
  · rw [step_of_reservedBits accepting set, raiseRefused_eq]
    rfl
  · obtain ⟨rs, move⟩ := move_of_step stepped
    exact move.grows.refused

/-! ### The port while the block is busy -/

/-- A move of a busy block leaves the request, the port and the client (R66). -/
theorem tick_port {s : State} {op : Op} {n : Nat} (busy : s.phase = .busy op n) :
    (tick s).reqValid = s.reqValid ∧ (tick s).reqIn = s.reqIn ∧ (tick s).req = s.req ∧ (tick s).client = s.client := by
  obtain ⟨t, -, write⟩ | ⟨-, finish⟩ := tick_cases busy
  · obtain ⟨p, x, c, w, d, tr, ps, k, eq⟩ := framePinWrite_frame t s
    rw [write, eq]
    exact ⟨rfl, rfl, rfl, rfl⟩
  · obtain ⟨r, eq⟩ := finishOp_eq op s
    rw [finish, eq]
    exact ⟨rfl, rfl, rfl, rfl⟩

theorem step_of_busy {s : State} {op : Op} {n : Nat} (busy : s.phase = .busy op n) (undue : s.resets.head? ≠ some 0) :
    ∃ rs, step s = .next (tick { s with resets := rs }) := by
  obtain ⟨rs, -, stepped⟩ := step_of_no_due_reset s undue
  exact ⟨rs, stepped.trans (advance_of_busy (s := { s with resets := rs }) busy _)⟩

/-- A move that accepts nothing keeps S.req (R20). -/
theorem Move.req_of_empty {s t : State} (move : Move s t) (empty : s.reqValid = false) : t.req = s.req := by
  cases move with
  | reset =>
    rw [platformReset_eq, blockReset_eq]
  | pinWrite busy =>
    obtain ⟨-, -, req, -⟩ := tick_port busy
    exact req
  | accepted _ valid | start _ _ _ valid => cases empty.symm.trans valid
  | client | event => rfl

/-- Settles O12: `tick_port` while busy, `Accepted.latched` on acceptance, and no other move writes S.req. -/
theorem requestHeldUntilIdle : Obligations.RequestHeldUntilIdle := by
  refine ⟨fun s op n busy undue => ?_, fun s i accepting decoded => ?_, fun s t _ empty stepped => ?_⟩
  · obtain ⟨rs, stepped⟩ := step_of_busy busy undue
    exact ⟨_, stepped, tick_port (s := { s with resets := rs }) busy⟩
  · obtain ⟨t, ran⟩ := noInstructionStops i (latchRequest s)
    have stepped := (step_of_decode accepting decoded).trans ran
    exact ⟨t, stepped, (Accepted.of_exec (encode_of_decode decoded) ran).latched accepting.1⟩
  · obtain ⟨rs, move⟩ := move_of_step stepped
    exact move.req_of_empty empty

/-! ### Priority -/

theorem step_of_due_reset {s : State} {rest : List Nat} (due : s.resets = 0 :: rest) :
    step s = .next (platformReset { s with resets := rest }) := by
  simp only [step, due]

/-- Settles O13: the reset comes first in the step, the op code first in the decoder, and a refused word starts nothing. -/
theorem priorityOfEvents : Obligations.PriorityOfEvents := by
  refine ⟨fun s rest due => ?_, fun s accepting op => ?_, fun s accepting _ set => ?_⟩
  · refine ⟨_, step_of_due_reset due, ?_⟩
    rw [platformReset_eq, blockReset_eq]
    exact ⟨rfl, rfl, rfl, rfl, rfl⟩
  · exact ⟨_, step_of_reservedOp accepting op, rfl, rfl⟩
  · exact ⟨_, step_of_reservedBits accepting set, rfl, rfl⟩

end Sys2Proof.Machine
end

