-- ==== Sys2Proof/Proofs/Reset.lean ====
section
/-! SUPPORT. Proofs/Reset.lean: block reset in each phase, at power-on, and as a whole step of the system (R160, R161). -/

namespace Sys2Proof.Machine

/-- Block reset of an idle block (R160). -/
theorem blockReset_of_idle {s : State} (idle : s.phase = .idle) :
    blockReset s =
      { s with phase := .idle, pinStep := 0, rot := s.cfg.rotReset, csx := !s.cfg.csActive, wrx := true,
               pins := s.pins ++ [.csx (!s.cfg.csActive), .wrx true] } := by
  simp [blockReset_eq, ready, idle]

/-- Block reset of a busy block marks the abort as well (R161). -/
theorem blockReset_of_busy {s : State} {op : Op} {n : Nat} (busy : s.phase = .busy op n) :
    blockReset s =
      { s with phase := .idle, pinStep := 0, rot := s.cfg.rotReset, csx := !s.cfg.csActive, wrx := true,
               pins := s.pins ++ [.csx (!s.cfg.csActive), .wrx true], fault := s.fault ++ [.aborted] } := by
  simp [blockReset_eq, ready, busy]

/-- Settles O42: the two phases, the power-on state as the reset of a fresh run, and `replay_resetEvents`. -/
theorem blockResetEffect : Obligations.BlockResetEffect := by
  refine ⟨fun s idle => blockReset_of_idle idle, fun s op n busy => blockReset_of_busy busy, fun cfg csx dcx wrx d => ?_,
    fun cfg p => ?_⟩
  · exact blockReset_of_idle rfl
  · rw [replay_resetEvents]

/-- A client is interrupted only while an operation runs (R135). -/
theorem interrupts_of_idle {s : State} (idle : s.phase = .idle) : interrupts s = false := by
  simp only [interrupts, ready, idle, Bool.not_true, Bool.false_and]

theorem interrupts_of_busy {s : State} {op : Op} {n : Nat} (busy : s.phase = .busy op n) :
    interrupts s = s.client.transition.isSome := by
  simp only [interrupts, ready, busy, Bool.not_false, Bool.true_and]

/-- Settles O51: the block's reset in each phase, with the client interrupted while an operation of its transition runs. -/
theorem dueResetStep : Obligations.DueResetStep := by
  intro s rest due
  refine ⟨fun idle => ?_, fun op n busy => ?_⟩
  · rw [step_of_due_reset due, platformReset, blockReset_of_idle (s := { s with resets := rest }) idle,
      interrupts_of_idle (s := { s with resets := rest }) idle, Bool.or_false]
    simp only [idle]
  · rw [step_of_due_reset due, platformReset, blockReset_of_busy (s := { s with resets := rest }) busy,
      interrupts_of_busy (s := { s with resets := rest }) busy]

end Sys2Proof.Machine
end

