-- ==== Sys2Proof/Proofs/Sequencer.lean ====
section
/-! SUPPORT. Proofs/Sequencer.lean: an operation run pin write by pin write against the operation run whole, and what a reset in its
middle keeps (R90, R161). -/

namespace Sys2Proof.Machine

/-! ### The frames of an operation, seven moves each -/

theorem drop_eq_cons {α : Type} {l : List α} {n : Nat} {t : α} {ts : List α} (h : l.drop n = t :: ts) :
    l[n]? = some t ∧ l.drop (n + 1) = ts := by
  constructor
  · have first := List.getElem?_drop (xs := l) (i := n) (j := 0)
    rwa [h, Nat.add_zero, List.getElem?_cons_zero, eq_comm] at first
  · rw [← List.tail_drop, h, List.tail_cons]

/-- From the start of a frame, the moves for the frames still to come and one to end the operation run them whole (R53, R90). -/
theorem ticks_eq_finishOp_runFrames (op : Op) (ts : List Transaction) :
    ∀ (s : State) (n : Nat), s.phase = .busy op n → s.pinStep = 0 → (opTransactions s op).drop n = ts →
      tick^[7 * ts.length + 1] s = finishOp op (runFrames ts s) := by
  induction ts with
  | nil =>
    intro s n busy between left
    have done : (opTransactions s op)[n]? = none := List.getElem?_eq_none_iff.mpr (List.drop_eq_nil_iff.mp left)
    obtain ⟨r, eq⟩ := finishOp_eq op s
    rw [List.length_nil, Function.iterate_one, tick_of_done busy done, runFrames, List.foldl_nil, eq, ← between]
  | cons t ts ih =>
    intro s n busy between left
    obtain ⟨due, left⟩ := drop_eq_cons left
    have same : opTransactions (frame t s) op = opTransactions s op := by
      rw [frame_eq]
      exact opTransactions_congr op s _ rfl rfl
    have busyAfter : (frame t s).phase = .busy op (n + 1) := by rw [frame_eq, busy, addFrames_busy]
    have betweenAfter : (frame t s).pinStep = 0 := by rw [frame_eq, ← between]
    have count : 7 * (t :: ts).length + 1 = 7 * ts.length + 1 + 7 := by rw [List.length_cons]; omega
    rw [count, Function.iterate_add_apply, seven_ticks s op n t busy between due]
    exact ih (frame t s) (n + 1) busyAfter betweenAfter (same ▸ left)

theorem runFrames_req (ts : List Transaction) (s : State) : (runFrames ts s).req = s.req := by
  induction ts generalizing s with
  | nil => rfl
  | cons t ts ih => exact (ih (frame t s)).trans (by rw [frame_eq])

theorem opTransactions_of_wrcmdRequest {s : State} {c : Byte} (word : wrcmdRequest c = s.req) :
    opTransactions s .wrcmd = [cmdWord c] := by
  rw [opTransactions, ← word, wrcmdRequest, reqA0_packRequest, byteField_setWidth]

/-- The operation of the latched request is what the instruction it decodes to does (R20, R91, R100, R110). -/
theorem exec_eq_finishOp_runFrames {i : Instr} {s : State} {op : Op} (encoded : encode i = some s.req)
    (starts : startsOp i s = some op) :
    exec i s = .next (finishOp op (runFrames (opTransactions s op) (beginOp op s))) := by
  cases i with
  | wrdat w =>
    cases starts
    have sent : opTransactions s .wrdat = [⟨.dat, w⟩] := by
      rw [opTransactions, ← Option.some.inj encoded, reqA0_packRequest]
    rw [sent]
    rfl
  | setwin x0 y0 x1 y1 =>
    cases set : s.rot with
    | none => simp [startsOp, set] at starts
    | some r =>
      simp only [startsOp, set, Option.some.injEq] at starts
      subst starts
      have sent : opTransactions s .setwin = setwinTransactions r x0 y0 x1 y1 := by
        simp [opTransactions, set, ← Option.some.inj encoded]
      rw [sent]
      simp only [exec, execSetwin, set, finishOp]
  | setrot rIn =>
    cases starts
    have sent : opTransactions s .setrot = setrotTransactions rIn := by
      rw [opTransactions, ← Option.some.inj encoded, reqA0_packRequest]
    have input : reqA0 (runFrames (setrotTransactions rIn) (beginOp .setrot s)).req = rIn := by
      rw [runFrames_req, beginOp_req, ← Option.some.inj encoded, reqA0_packRequest]
    rw [sent, exec_setrot, finishOp, input]
  | reservedOp0 | reservedOp5 | reservedOp6 | reservedOp7 | busWrite => cases starts
  | _ =>
    cases starts
    rw [opTransactions_of_wrcmdRequest (Option.some.inj encoded)]
    rfl

/-- Settles O39: the moves are the frames and the end, and the request word holds the operands of the instruction. -/
theorem sequencerMatchesWholeOperation : Obligations.SequencerMatchesWholeOperation := by
  intro s i op decoded starts
  have rotated : op = .setwin → s.rot.isSome = true := fun isSetwin => rot_isSome_of_startsOp_setwin (isSetwin ▸ starts)
  have count := opTransactions_length (s := latchRequest s) rotated
  have ticks := ticks_eq_finishOp_runFrames op (opTransactions (latchRequest s) op) (beginOp op (latchRequest s)) 0 rfl rfl rfl
  rw [count] at ticks
  rw [ticks, exec_eq_finishOp_runFrames (s := latchRequest s) (encode_of_decode decoded) starts]

/-! ### An operation cut off in its middle -/

/-- A pin write moves the place in the frame on, and the sixth latches the transaction (R42, R90). -/
theorem framePinWrite_place {s : State} (t : Transaction) (place : s.pinStep ≤ 6) :
    (framePinWrite t s).phase = (if s.pinStep = 6 then s.phase.addFrames 1 else s.phase) ∧
    (framePinWrite t s).pinStep = (if s.pinStep = 6 then 0 else s.pinStep + 1) ∧
    (framePinWrite t s).trace = (if s.pinStep = 5 then s.trace ++ [t] else s.trace) := by
  interval_cases step : s.pinStep <;> simp [framePinWrite, step]

/-- The state `t` is `m` pin writes into the operation that began in `s`. -/
structure Underway (s : State) (op : Op) (m : Nat) (t : State) : Prop where
  /-- Whole frames behind it. -/
  phase : t.phase = .busy op (m / 7)
  /-- The place inside the frame. -/
  pinStep : t.pinStep = m % 7
  /-- A transaction counts from the sixth pin write of its frame. -/
  trace : t.trace = s.trace ++ (opTransactions s op).take ((m + 1) / 7)
  /-- No mark is raised. -/
  fault : t.fault = s.fault
  /-- The latched request stays. -/
  req : t.req = s.req
  /-- The rotation stays. -/
  rot : t.rot = s.rot

theorem Underway.tick {s t : State} {op : Op} {m : Nat} (at_m : Underway s op m t) (more : m < 7 * (opTransactions s op).length) :
    Underway s op (m + 1) (tick t) := by
  obtain ⟨phase, pinStep, trace, fault, req, rot⟩ := at_m
  have inFrame : m / 7 < (opTransactions s op).length := by omega
  have due : (opTransactions t op)[m / 7]? = some (opTransactions s op)[m / 7] := by
    rw [opTransactions_congr op s t req rot, List.getElem?_eq_getElem inFrame]
  have place : t.pinStep ≤ 6 := by omega
  obtain ⟨phase', pinStep', trace'⟩ := framePinWrite_place (opTransactions s op)[m / 7] place
  obtain ⟨p, x, c, w, d, tr, ps, k, frame⟩ := framePinWrite_frame (opTransactions s op)[m / 7] t
  rw [tick_of_frame t op _ _ phase due]
  refine ⟨?_, ?_, ?_, ?_, ?_, ?_⟩
  · rw [phase', phase, addFrames_busy, pinStep]
    split
    · congr 1; omega
    · congr 1; omega
  · rw [pinStep', pinStep]
    split <;> omega
  · rw [trace', trace, pinStep]
    split
    · have next : (m + 1 + 1) / 7 = m / 7 + 1 := by omega
      have here : (m + 1) / 7 = m / 7 := by omega
      rw [next, here, List.append_assoc, List.take_concat_get' ]
    · have same : (m + 1 + 1) / 7 = (m + 1) / 7 := by omega
      rw [same]
  · rw [frame]; exact fault
  · rw [frame]; exact req
  · rw [frame]; exact rot

theorem underway_ticks {s : State} {op : Op} {m : Nat} (within : m ≤ 7 * (opTransactions s op).length) :
    Underway s op m (tick^[m] (beginOp op s)) := by
  induction m with
  | zero => exact ⟨rfl, rfl, (List.append_nil _).symm, rfl, rfl, rfl⟩
  | succ m ih =>
    rw [Function.iterate_succ_apply']
    exact (ih (by omega)).tick (by omega)

/-- Settles O43: `underway_ticks` counts the transactions latched, and block reset keeps the trace and marks the abort. -/
theorem resetKeepsThePartSent : Obligations.ResetKeepsThePartSent := by
  intro s op m rotated within
  rw [← opTransactions_length rotated] at within
  obtain ⟨phase, -, trace, fault, -, -⟩ := underway_ticks within
  refine ⟨?_, ?_, ?_⟩
  · rw [blockReset_eq]
    exact trace
  · rw [blockReset_of_busy phase, ← fault]
  · rw [blockReset_eq]

end Sys2Proof.Machine
end

