-- ==== Sys2Proof/Proofs/ClientMoves.lean ====
section
/-! SUPPORT. Proofs/ClientMoves.lean: one move of the client by the head of its program, when a move stops, and the client-level
trace (R127, R129, R135). -/

namespace Sys2Proof.Machine

/-! ### The step that is a move of the client -/

theorem CountsDown.eq {rs rs' : List Nat} (h : CountsDown rs rs') : rs' = Expect.countedDown rs := by
  obtain ⟨rfl, rfl⟩ | ⟨k, rest, rfl, rfl⟩ := h <;> rfl

/-- With the block idle, the port empty and no reset due, the client moves (R66). -/
theorem step_of_client {s : State} (idle : s.phase = .idle) (empty : s.reqValid = false) (undue : s.resets.head? ≠ some 0) :
    step s = clientMove (Expect.ticked s) := by
  obtain ⟨rs, count, stepped⟩ := step_of_no_due_reset s undue
  rw [stepped, count.eq]
  simp [advance, idle, empty, Expect.ticked]

theorem noteEvent_setProgram (e : ClientEvent) (rest : List ClientAction) (s : State) :
    noteEvent e (setProgram rest s) = Expect.afterClientEvent e rest s := rfl

section Moves
variable {s : State} {rest : List ClientAction} (going : s.client.interrupted = false)
include going

theorem clientMove_of_request {w : Request} (head : s.client.program = .request w :: rest) :
    clientMove s = .next (presentRequest w (setProgram rest s)) := by
  simp [clientMove, going, head]

theorem clientMove_of_resetPulse (head : s.client.program = .resetPulse :: rest) :
    clientMove s = .next (Expect.afterClientEvent .resetPulse rest s) := by
  simp [clientMove, going, head, noteEvent_setProgram]

theorem clientMove_of_wait {t : Nat} (head : s.client.program = .wait t :: rest) :
    clientMove s = .next (Expect.afterClientEvent (.wait t) rest s) := by
  simp [clientMove, going, head, noteEvent_setProgram]

theorem clientMove_of_arrive {l : Lifecycle} (head : s.client.program = .arrive l :: rest) :
    clientMove s = .next (setProgram rest { s with client := { s.client with lifecycle := l, transition := none } }) := by
  simp [clientMove, going, head]

theorem clientMove_of_call {c : Call} (head : s.client.program = .call c :: rest) : clientMove s = makeCall c rest s := by
  simp [clientMove, going, head]

theorem clientMove_of_nil (head : s.client.program = []) : clientMove s = .next s := by
  simp [clientMove, going, head]

end Moves

/-- A client event is the last entry of the client-level trace (R129). -/
theorem clientTrace_of_event (e : ClientEvent) (s t : State) (trace : t.trace = s.trace)
    (events : t.client.events = s.client.events ++ [⟨s.trace.length, e⟩]) : clientTrace t = clientTrace s ++ [e] := by
  rw [clientTrace, trace, events]
  exact interleave_concat e s.trace.length s.client.events 0 s.trace rfl

/-- Settles O48: the two moves that record an event. -/
theorem clientEventsLeaveTheBlockAlone : Obligations.ClientEventsLeaveTheBlockAlone := by
  intro s rest t idle empty undue going
  rw [step_of_client idle empty undue]
  refine ⟨fun head => ⟨?_, ?_⟩, fun head => ⟨?_, ?_⟩⟩
  · exact clientMove_of_resetPulse (s := Expect.ticked s) going head
  · exact clientTrace_of_event .resetPulse s _ rfl rfl
  · exact clientMove_of_wait (s := Expect.ticked s) going head
  · exact clientTrace_of_event (.wait t) s _ rfl rfl

theorem makeCall_of_draw {c : Call} {s : State} {p : List Stmt} (planned : plan c s.client.lifecycle (rotOut s) = .draw p)
    (rest : List ClientAction) : makeCall c rest s = .next (setProgram (assemble p ++ rest) (afterSampling c s)) := by
  simp only [makeCall, planned]

theorem makeCall_of_transit {c : Call} {s : State} {p : List Stmt} {l : Lifecycle}
    (planned : plan c s.client.lifecycle (rotOut s) = .transit p l) (rest : List ClientAction) :
    makeCall c rest s =
      .next (setProgram (assemble p ++ .arrive l :: rest) { s with client := { s.client with transition := some l } }) := by
  simp only [makeCall, planned]

/-- Settles O49: the client's move by the head of its program. -/
theorem clientMovesInProgramOrder : Obligations.ClientMovesInProgramOrder := by
  intro s rest idle empty undue going
  rw [step_of_client idle empty undue]
  refine ⟨fun w head => ?_, fun c p head planned => ?_, fun c p l head planned => ?_, fun l head => ?_, fun head => ?_⟩
  · exact clientMove_of_request (s := Expect.ticked s) going head
  · rw [clientMove_of_call (s := Expect.ticked s) going head, makeCall_of_draw (s := Expect.ticked s) planned, afterSampling_eq]
    cases c <;> rfl
  · rw [clientMove_of_call (s := Expect.ticked s) going head, makeCall_of_transit (s := Expect.ticked s) planned]
    rfl
  · exact clientMove_of_arrive (s := Expect.ticked s) going head
  · exact clientMove_of_nil (s := Expect.ticked s) going head

/-! ### Moves that stop -/

/-- The lifecycle calls without a transition (R135). -/
theorem plan_eq_undefined (c : Call) (l : Lifecycle) (r : Rotation) : plan c l r = .undefined ↔ Expect.noTransition c l := by
  cases c <;> cases l <;> simp [plan, Expect.noTransition]

/-- The calls without a sequence (R127). -/
theorem plan_eq_noSequence (c : Call) (l : Lifecycle) (r : Rotation) : plan c l r = .noSequence ↔ Expect.noSequence c := by
  cases c <;> cases l <;> simp [plan, Expect.noSequence]

theorem makeCall_of_undefined {c : Call} {s : State} (h : Expect.noTransition c s.client.lifecycle) (rest : List ClientAction) :
    makeCall c rest s = .fault .undefinedTransition := by
  simp only [makeCall, (plan_eq_undefined c _ (rotOut s)).mpr h]

theorem makeCall_of_noSequence {c : Call} {s : State} (h : Expect.noSequence c) (rest : List ClientAction) :
    makeCall c rest s = .refused .noClientSequence := by
  simp only [makeCall, (plan_eq_noSequence c s.client.lifecycle (rotOut s)).mpr h]

theorem clientMove_of_interrupted {s : State} (h : s.client.interrupted = true) :
    clientMove s = .fault .transitionInterrupted := by
  simp only [clientMove, h, if_true]

/-- Settles O50: the plans, and the moves that stop. -/
theorem undefinedClientMovesStop : Obligations.UndefinedClientMovesStop := by
  refine ⟨fun c l r => ⟨plan_eq_undefined c l r, plan_eq_noSequence c l r⟩, fun s idle empty undue => ?_⟩
  rw [step_of_client idle empty undue]
  refine ⟨fun interrupted => clientMove_of_interrupted (s := Expect.ticked s) interrupted, fun c rest going head => ?_⟩
  rw [clientMove_of_call (s := Expect.ticked s) going head]
  exact ⟨fun h => makeCall_of_undefined (s := Expect.ticked s) h rest, fun h => makeCall_of_noSequence h rest⟩

/-- How a call faults. -/
theorem makeCall_eq_fault {c : Call} {rest : List ClientAction} {s : State} {f : Fault} (h : makeCall c rest s = .fault f) :
    f = .undefinedTransition ∧ Expect.noTransition c s.client.lifecycle := by
  obtain ⟨p, -, call⟩ | ⟨p, l, -, call⟩ | ⟨planned, call⟩ | ⟨-, call⟩ := makeCall_cases c rest s <;> cases call.symm.trans h
  exact ⟨rfl, (plan_eq_undefined ..).mp planned⟩

/-- How a call is refused. -/
theorem makeCall_eq_refused {c : Call} {rest : List ClientAction} {s : State} {r : Refusal}
    (h : makeCall c rest s = .refused r) : r = .noClientSequence ∧ Expect.noSequence c := by
  obtain ⟨p, -, call⟩ | ⟨p, l, -, call⟩ | ⟨-, call⟩ | ⟨planned, call⟩ := makeCall_cases c rest s <;> cases call.symm.trans h
  exact ⟨rfl, (plan_eq_noSequence ..).mp planned⟩

/-- Everything a move of the client that stops can be. -/
theorem clientMove_eq_fault {s : State} {f : Fault} (h : clientMove s = .fault f) :
    s.client.interrupted = true ∧ f = .transitionInterrupted ∨
    s.client.interrupted = false ∧ f = .undefinedTransition ∧
      ∃ c rest, s.client.program = .call c :: rest ∧ Expect.noTransition c s.client.lifecycle := by
  unfold clientMove at h
  split_ifs at h with interrupted
  · cases h
    exact .inl ⟨interrupted, rfl⟩
  · split at h
    case h_6 c rest head =>
      obtain ⟨rfl, undefined⟩ := makeCall_eq_fault h
      exact .inr ⟨Bool.eq_false_of_not_eq_true interrupted, rfl, c, rest, head, undefined⟩
    all_goals cases h

theorem clientMove_eq_refused {s : State} {r : Refusal} (h : clientMove s = .refused r) :
    s.client.interrupted = false ∧ r = .noClientSequence ∧
      ∃ c rest, s.client.program = .call c :: rest ∧ Expect.noSequence c := by
  unfold clientMove at h
  split_ifs at h with interrupted
  split at h
  case h_6 c rest head =>
    obtain ⟨rfl, unknown⟩ := makeCall_eq_refused h
    exact ⟨Bool.eq_false_of_not_eq_true interrupted, rfl, c, rest, head, unknown⟩
  all_goals cases h

theorem acceptWhole_next (s : State) : ∃ t, acceptWhole s = .next t := by
  cases decoded : decode s.reqIn with
  | ok i => exact acceptWhole_of_ok decoded ▸ noInstructionStops i _
  | error e => exact ⟨_, acceptWhole_of_error decoded⟩

theorem acceptStart_next (s : State) : ∃ t, acceptStart s = .next t := by
  cases decoded : decode s.reqIn with
  | ok i =>
    cases starts : startsOp i s with
    | some op => exact ⟨_, acceptStart_of_startsOp decoded starts⟩
    | none => exact acceptStart_of_startsOp_none decoded starts ▸ noInstructionStops i _
  | error e => exact ⟨_, acceptStart_of_error decoded⟩

/-- A step that does not answer is a move of the client. -/
theorem step_next_or_clientMove (s : State) :
    (∃ t, step s = .next t) ∨
      s.phase = .idle ∧ s.reqValid = false ∧ ∃ rs, step s = clientMove { s with resets := rs } := by
  obtain ⟨rest, -, move⟩ | ⟨rs, -, ⟨op, n, -, move⟩ | ⟨-, -, move⟩ | ⟨idle, empty, move⟩⟩ := step_cases s
  · exact .inl ⟨_, move⟩
  · exact .inl ⟨_, move⟩
  · rw [move]
    split_ifs
    · exact .inl (acceptWhole_next _)
    · exact .inl (acceptStart_next _)
  · exact .inr ⟨idle, empty, rs, move⟩

/-- Settles O32: the block and an acceptance always answer, so a step that stops is a stop of the client's move. -/
theorem onlyTheClientStops : Obligations.OnlyTheClientStops := by
  refine ⟨fun s f stops => ?_, fun s r stops => ?_⟩
  · obtain ⟨t, answers⟩ | ⟨idle, empty, rs, move⟩ := step_next_or_clientMove s
    · cases answers.symm.trans stops
    · exact ⟨idle, empty, clientMove_eq_fault (s := { s with resets := rs }) (move.symm.trans stops)⟩
  · obtain ⟨t, answers⟩ | ⟨idle, empty, rs, move⟩ := step_next_or_clientMove s
    · cases answers.symm.trans stops
    · exact ⟨idle, empty, clientMove_eq_refused (s := { s with resets := rs }) (move.symm.trans stops)⟩

end Sys2Proof.Machine
end

