-- ==== Sys2Proof/Proofs/ClientTrace.lean ====
section
/-! SUPPORT. Proofs/ClientTrace.lean: the client-level trace against S.trace and the client's events (R129). -/

namespace Sys2Proof.Machine

theorem ClientEvent.IsOwn.busOf_eq {e : ClientEvent} (own : ClientEvent.IsOwn e) : Expect.busOf e = none := by
  obtain rfl | ⟨t, rfl⟩ := own <;> rfl

theorem ClientEvent.IsOwn.ownOf_eq {e : ClientEvent} (own : ClientEvent.IsOwn e) : Expect.ownOf e = some e := by
  obtain rfl | ⟨t, rfl⟩ := own <;> rfl

theorem filterMap_busOf_bus (ts : List Transaction) : (ts.map ClientEvent.bus).filterMap Expect.busOf = ts := by
  rw [List.filterMap_map]
  exact List.filterMap_some

theorem filterMap_ownOf_bus (ts : List Transaction) : (ts.map ClientEvent.bus).filterMap Expect.ownOf = [] := by
  rw [List.filterMap_map]
  exact List.filterMap_none ..

/-- The transactions of the interleaving are the trace, in order. -/
theorem interleave_busOf (ms : List ClientMark) (own : ∀ m ∈ ms, ClientEvent.IsOwn m.event) (done : Nat)
    (trace : List Transaction) : (interleave done ms trace).filterMap Expect.busOf = trace := by
  induction ms generalizing done trace with
  | nil => exact filterMap_busOf_bus trace
  | cons m ms ih =>
    obtain ⟨head, tail⟩ := List.forall_mem_cons.mp own
    rw [interleave, List.filterMap_append, filterMap_busOf_bus, List.filterMap_cons_none head.busOf_eq, ih tail,
      List.take_append_drop]

/-- The other entries of the interleaving are the marks' events, in order. -/
theorem interleave_ownOf (ms : List ClientMark) (own : ∀ m ∈ ms, ClientEvent.IsOwn m.event) (done : Nat)
    (trace : List Transaction) : (interleave done ms trace).filterMap Expect.ownOf = ms.map (fun m => m.event) := by
  induction ms generalizing done trace with
  | nil => exact filterMap_ownOf_bus trace
  | cons m ms ih =>
    obtain ⟨head, tail⟩ := List.forall_mem_cons.mp own
    rw [interleave, List.filterMap_append, filterMap_ownOf_bus, List.filterMap_cons_some head.ownOf_eq, ih tail,
      List.nil_append, List.map_cons]

/-- What a move does to the two records that the client-level trace is made of: more transactions and no event, or one event of the
client and no transaction. -/
theorem Move.trace_or_event {s t : State} (move : Move s t) :
    (∃ new, t.trace = s.trace ++ new ∧ t.client.events = s.client.events) ∨
    (∃ e, ClientEvent.IsOwn e ∧ t.trace = s.trace ∧ t.client.events = s.client.events ++ [⟨s.trace.length, e⟩]) := by
  obtain ⟨new, trace⟩ := move.grows.trace
  cases move with
  | reset =>
    refine .inl ⟨new, trace.symm, ?_⟩
    rw [platformReset_eq]
  | pinWrite busy =>
    obtain ⟨-, -, -, client⟩ := tick_port busy
    exact .inl ⟨new, trace.symm, congrArg Client.events client⟩
  | accepted _ _ ran =>
    cases ran <;> exact .inl ⟨new, trace.symm, rfl⟩
  | start => exact .inl ⟨new, trace.symm, rfl⟩
  | client c v w draws events => exact .inl ⟨new, trace.symm, events⟩
  | event rest e own => exact .inr ⟨e, own, rfl, rfl⟩

/-- More transactions are the last entries of the client-level trace. -/
theorem clientTrace_of_transactions {s t : State} {new : List Transaction} (marks : s.MarksInTrace)
    (trace : t.trace = s.trace ++ new) (events : t.client.events = s.client.events) :
    clientTrace t = clientTrace s ++ new.map .bus := by
  rw [clientTrace, trace, events]
  exact interleave_append new _ 0 _ fun m mem => (marks m mem).1

theorem marksInTrace_of_transactions {s t : State} {new : List Transaction} (marks : s.MarksInTrace)
    (trace : t.trace = s.trace ++ new) (events : t.client.events = s.client.events) : t.MarksInTrace := by
  intro m mem
  obtain ⟨inside, own⟩ := marks m (events ▸ mem)
  rw [trace, List.length_append]
  exact ⟨inside.trans (Nat.le_add_right ..), own⟩

theorem marksInTrace_of_event {s t : State} {e : ClientEvent} (marks : s.MarksInTrace) (own : ClientEvent.IsOwn e)
    (trace : t.trace = s.trace) (events : t.client.events = s.client.events ++ [⟨s.trace.length, e⟩]) : t.MarksInTrace := by
  intro m mem
  rw [events] at mem
  rw [trace]
  obtain old | new := List.mem_append.mp mem
  · exact marks m old
  · cases List.mem_singleton.mp new
    exact ⟨le_rfl, own⟩

/-- Settles O52: the interleaving is read back by `interleave_busOf` and `interleave_ownOf`, and each move extends it by
`Move.trace_or_event`. -/
theorem clientTraceInterleaves : Obligations.ClientTraceInterleaves := by
  refine ⟨fun s marks => ?_, fun s t marks stepped => ?_⟩
  · have own : ∀ m ∈ s.client.events, ClientEvent.IsOwn m.event := fun m mem => (marks m mem).2
    exact ⟨interleave_busOf _ own 0 _, interleave_ownOf _ own 0 _⟩
  · obtain ⟨rs, move⟩ := move_of_step stepped
    obtain ⟨new, trace, events⟩ | ⟨e, own, trace, events⟩ := move.trace_or_event
    · exact ⟨marksInTrace_of_transactions marks trace events,
        .inl ⟨new, trace, events, clientTrace_of_transactions marks trace events⟩⟩
    · exact ⟨marksInTrace_of_event marks own trace events, .inr ⟨e, trace, events, clientTrace_of_event e s t trace events⟩⟩

end Sys2Proof.Machine
end

