-- ==== Sys2Proof/Proofs/ClientRequests.lean ====
section
/-! SUPPORT. Proofs/ClientRequests.lean: the drawing and lifecycle sequences as request words in numbers (R121 to R134). -/

namespace Sys2Proof.Machine

/-! ### Statements as request words -/

theorem packRequest_eq_ofNat (op : BitVec 3) (a0 a1 a2 a3 : Word18) :
    packRequest op a0 a1 a2 a3 =
      BitVec.ofNat 75 (op.toNat + a0.toNat * 2 ^ 3 + a1.toNat * 2 ^ 21 + a2.toNat * 2 ^ 39 + a3.toNat * 2 ^ 57) := by
  rw [← packRequest_toNat, BitVec.ofNat_toNat, BitVec.setWidth_eq]

theorem expand_setwin (x0 y0 x1 y1 : Coord) :
    expand (.op (.setwin x0 y0 x1 y1)) =
      [Expect.req (3 + x0.toNat * 2 ^ 3 + y0.toNat * 2 ^ 21 + x1.toNat * 2 ^ 39 + y1.toNat * 2 ^ 57)] := by
  have field : ∀ v : Coord, (v.setWidth 18).toNat = v.toNat := fun v => BitVec.toNat_setWidth_of_le (by decide)
  have word := packRequest_eq_ofNat 3 (x0.setWidth 18) (y0.setWidth 18) (x1.setWidth 18) (y1.setWidth 18)
  simp only [field] at word
  exact congrArg (fun w => [ClientAction.request w]) word

theorem packRequest_of_one_operand (op : BitVec 3) (a0 : Word18) :
    packRequest op a0 0 0 0 = BitVec.ofNat 75 (op.toNat + a0.toNat * 8) := by
  have unused : (0 : Word18).toNat = 0 := rfl
  simp only [packRequest_eq_ofNat, unused, Nat.zero_mul, Nat.add_zero, Nat.reducePow]

theorem requestOf_wrdat (w : Word18) : requestOf (.wrdat w) = [Expect.req (2 + w.toNat * 8)] :=
  congrArg (fun w => [ClientAction.request w]) (packRequest_of_one_operand 2 w)

theorem requestOf_setrot (r : Word18) : requestOf (.setrot r) = [Expect.req (4 + r.toNat * 8)] :=
  congrArg (fun w => [ClientAction.request w]) (packRequest_of_one_operand 4 r)

theorem requestOf_maskColor (c : Nat) : requestOf (.wrdat (maskColor c)) = [Expect.req (2 + (c &&& 0x3FFFF) * 8)] := by
  rw [requestOf_wrdat, maskColor_toNat]
  rfl

/-- FILL is the one word as often as it says (R70). -/
theorem expand_fill (n c : Nat) : expand (.fill n c) = List.replicate n (Expect.req (2 + (c &&& 0x3FFFF) * 8)) := by
  rw [expand, requestOf_maskColor, List.flatten_replicate_singleton]

/-! ### The drawing sequences -/

/-- The last coordinate of an extent, modulo 2^16 (R122, D18). -/
theorem lastCoord_toNat (x w : Coord) : (x + w - 1).toNat = (x.toNat + w.toNat + 65535) % 65536 := by
  simp [BitVec.toNat_sub, BitVec.toNat_add]
  omega

theorem assemble_fillRectSeq (x y w h : Coord) (c : Nat) :
    assemble (fillRectSeq x y w h c) =
      Expect.req (3 + x.toNat * 2 ^ 3 + y.toNat * 2 ^ 21 + (x.toNat + w.toNat + 65535) % 65536 * 2 ^ 39
        + (y.toNat + h.toNat + 65535) % 65536 * 2 ^ 57) ::
      List.replicate (w.toNat * h.toNat) (Expect.req (2 + (c &&& 0x3FFFF) * 8)) := by
  rw [assemble, fillRectSeq, List.flatMap_cons, List.flatMap_singleton, expand_setwin, expand_fill,
    lastCoord_toNat, lastCoord_toNat, List.singleton_append]

/-- Settles O45: the two calls have one plan. -/
theorem fillRectStreamsWidthTimesHeight : Obligations.FillRectStreamsWidthTimesHeight := by
  intro x y w h c l r
  cases l <;> exact ⟨rfl, _, rfl, assemble_fillRectSeq x y w h c⟩

theorem assemble_drawPixelSeq (x y : Coord) (c : Nat) :
    assemble (drawPixelSeq x y c) =
      [Expect.req (3 + x.toNat * 2 ^ 3 + y.toNat * 2 ^ 21 + x.toNat * 2 ^ 39 + y.toNat * 2 ^ 57),
        Expect.req (2 + (c &&& 0x3FFFF) * 8)] := by
  rw [assemble, drawPixelSeq, List.flatMap_cons, List.flatMap_singleton, expand_setwin, expand, requestOf_maskColor,
    List.singleton_append]

/-- The canvas fits 16-bit coordinates (R113). -/
theorem canvas_lt (r : Rotation) : canvasWidth r - 1 < 2 ^ 16 ∧ canvasHeight r - 1 < 2 ^ 16 := by
  cases swap : swapsAxes r <;> simp [canvasWidth, canvasHeight, swap]

/-- The canvas has the same number of points in every rotation (R113). -/
theorem canvas_area (r : Rotation) : canvasWidth r * canvasHeight r = 153600 := by
  cases swap : swapsAxes r <;> simp [canvasWidth, canvasHeight, swap]

theorem assemble_fillBackgroundSeq (r : Rotation) (c : Nat) :
    assemble (fillBackgroundSeq r c) =
      Expect.req (3 + (canvasWidth r - 1) * 2 ^ 39 + (canvasHeight r - 1) * 2 ^ 57) ::
      List.replicate 153600 (Expect.req (2 + (c &&& 0x3FFFF) * 8)) := by
  obtain ⟨width, height⟩ := canvas_lt r
  have origin : (0 : Coord).toNat = 0 := rfl
  rw [assemble, fillBackgroundSeq, List.flatMap_cons, List.flatMap_singleton, expand_setwin, expand_fill, canvas_area,
    BitVec.toNat_ofNat, BitVec.toNat_ofNat, Nat.mod_eq_of_lt width, Nat.mod_eq_of_lt height, List.singleton_append]
  simp only [origin, Nat.zero_mul, Nat.add_zero]

/-- Settles O46: both calls have their plan in every Lifecycle State. -/
theorem pixelAndBackgroundSequences : Obligations.PixelAndBackgroundSequences := by
  refine ⟨fun x y c l r => ?_, fun c l r => ?_⟩
  · cases l <;> exact ⟨_, rfl, assemble_drawPixelSeq x y c⟩
  · cases l <;> exact ⟨_, rfl, assemble_fillBackgroundSeq r c⟩

/-! ### The lifecycle sequences -/

theorem assemble_initSeq (rot : Word18) :
    assemble (initSeq rot) =
      [.resetPulse, Expect.req 0x89, .wait 120, Expect.req 0x1D1, Expect.req 0x332, Expect.req (4 + rot.toNat * 8),
        Expect.req 0x149, .wait 20] := by
  have input := requestOf_setrot rot
  simp only [assemble, initSeq, List.flatMap_cons, List.flatMap_nil, expand, input]
  rfl

/-- Settles O47: the requests but SETROT's are constants. -/
theorem lifecycleSequences : Obligations.LifecycleSequences := by
  refine ⟨fun rot r => ⟨_, rfl, assemble_initSeq rot⟩, fun r => ⟨⟨_, rfl, rfl⟩, ⟨_, rfl, rfl⟩, ?_, ⟨_, rfl, rfl⟩⟩⟩
  rintro l (rfl | rfl)
  · exact ⟨_, rfl, rfl⟩
  · exact ⟨_, rfl, rfl⟩

end Sys2Proof.Machine
end
